-- ==== Sys2Proof/Word.lean ====
section
/-! DEFINITION. The two value types of the block: a code and a magnitude. -/

namespace Sys2Proof

/-- A compressed code: 8 bits, unsigned, LSB-0 (rules R5, R7, R8, R29). -/
abbrev Code := BitVec 8

/-- An expanded magnitude: 16 bits, unsigned, LSB-0 (rules R5, R7, R8, R30). -/
abbrev Magnitude := BitVec 16

/-- The exponent field `code[7:4]` (rule R29). -/
def Code.exponent (c : Code) : Nat := c.toNat / 16

/-- The fraction field `code[3:0]` (rule R29). -/
def Code.fraction (c : Code) : Nat := c.toNat % 16

end Sys2Proof
end

