-- ==== Sys2Proof/Syntax.lean ====
section
/-! DEFINITION. The two operations of the block, the ports, the words a test bench puts on an input port, and the lines of a
transaction script (rules R18, R31, R35). -/

namespace Sys2Proof

/-- The block's input ports (rule R18). The port an input arrives on selects the operation (rule R31). -/
inductive InPort where
  /-- `dec_in[7:0]`, of the decoder. -/
  | dec
  /-- `enc_in[15:0]`, of the encoder. -/
  | enc
  deriving DecidableEq, Repr

/-- The block's output ports (rule R18). -/
inductive OutPort where
  /-- `dec_out[15:0]`, of the decoder. -/
  | dec
  /-- `enc_out[7:0]`, of the encoder. -/
  | enc
  deriving DecidableEq, Repr

/-- What one wire of a bus carries: a defined 0 or 1, or one of the unknown levels X and Z that rule R66 names. -/
inductive Level where
  | zero
  | one
  /-- unknown -/
  | x
  /-- not driven -/
  | z
  deriving DecidableEq, Repr

/-- A word on a bus, one level a wire, bit 0 first (rule R7). Its length is the number of wires driven. -/
abbrev BusWord := List Level

/-- The operations, one constructor for each row of spec/opcode_table.json (rule R31). An operand is a fully defined bit
vector (rule R66), so every value of the type is an admitted input (rule R33). -/
inductive Instr where
  /-- `UNCOMPRESS` (`DEC`): the code on `dec_in` (rule R36). -/
  | uncompress (c : Code)
  /-- `COMPRESS` (`ENC`): the magnitude on `enc_in` (rule R42). -/
  | compress (m : Magnitude)
  deriving DecidableEq, Repr

/-- One line of a transaction script (rule R35). -/
inductive Line where
  /-- `ENC <m>` and `DEC <c>`: the pair (input port, the word driven on it). The word is what the test bench puts on the
  wires; Decode.lean says which words are inputs of the block. -/
  | drive (p : InPort) (w : BusWord)
  /-- `ENC dec_out`: drive `enc_in` with the present settled value of `dec_out`. -/
  | encDecOut
  /-- `DEC enc_out`: drive `dec_in` with the present settled value of `enc_out`. -/
  | decEncOut
  /-- `EXPECT dec_out = <v>`: an assertion on a settled output, with no effect on the block. -/
  | expectDecOut (v : Magnitude)
  /-- `EXPECT enc_out = <v>`. -/
  | expectEncOut (v : Code)
  deriving DecidableEq, Repr

/-- What a run of an `EXPECT` line found (log 7). -/
inductive Verdict where
  /-- The port is settled at the expected value. -/
  | holds
  /-- The port is settled at another value. -/
  | fails
  /-- The port's input is undriven, so the port may hold any value (rule R66) and the assertion has no settled output to be
  about. -/
  | unsettled
  deriving DecidableEq, Repr

end Sys2Proof
end

