-- ==== Sys2Proof/WellFormed.lean ====
section
/-! DEFINITION. Which words and script lines are well formed. An operation always is (rule R33). -/

namespace Sys2Proof

/-- The number of wires of an input port (rules R18, R24): the port takes no narrower and no wider word. -/
def InPort.width : InPort → Nat
  | .dec => 8
  | .enc => 16

/-- A wire that carries a stable 0 or 1 (rule R66). -/
def Level.defined : Level → Bool
  | .zero => true
  | .one => true
  | .x => false
  | .z => false

/-- A word that is an input of port `p`: exactly the port's width (rules R24, R34), every bit a defined 0 or 1 (rule R66). -/
def BusWord.wf (p : InPort) (w : BusWord) : Bool :=
  decide (w.length = p.width) && w.all Level.defined

/-- Every operation is well formed: no code and no magnitude is reserved, illegal or undefined (rule R33). -/
def Instr.wf : Instr → Bool
  | .uncompress _ => true
  | .compress _ => true

/-- A script line is well formed where the word it drives, if any, is an input of its port (rules R35, R66). -/
def Line.wf : Line → Bool
  | .drive p w => BusWord.wf p w
  | .encDecOut => true
  | .decEncOut => true
  | .expectDecOut _ => true
  | .expectEncOut _ => true

end Sys2Proof
end

