-- ==== Sys2Proof/Decode.lean ====
section
/-! DEFINITION. Reading a word on an input port as an operation, and the encoder back (rules R7, R29, R30, R31, R33, R34).
The port selects the operation and every fully defined word of the port's width is an input of it: in
spec/opcode_table.json each row has mask 0 and match 0. -/

namespace Sys2Proof

/-- Why a word on a bus is no input of the block. -/
inductive DecodeReject where
  /-- The word has not the port's width (rules R24, R34). -/
  | wrongWidth
  /-- A bit of the word is X or Z (rule R66, decision D18). -/
  | undefinedBit
  deriving DecidableEq, Repr

/-- The bit a wire carries, where it carries one. -/
def Level.bit? : Level → Option Bool
  | .zero => some false
  | .one => some true
  | .x => none
  | .z => none

/-- The level that carries a bit. -/
def Level.ofBool : Bool → Level
  | false => .zero
  | true => .one

/-- The unsigned value of a word, bit `i` with weight `2^i` (rules R7, R22); none where a bit is X or Z. -/
def BusWord.value? : BusWord → Option Nat
  | [] => some 0
  | l :: w =>
    match l.bit?, BusWord.value? w with
    | some b, some v => some (b.toNat + 2 * v)
    | _, _ => none

/-- The word of `n` wires that carries the low `n` bits of `v`, bit 0 first (rule R7). -/
def BusWord.ofNat : Nat → Nat → BusWord
  | 0, _ => []
  | n + 1, v => Level.ofBool (v % 2 == 1) :: BusWord.ofNat n (v / 2)

/-- The operation that a value on a port is (rule R31). -/
def InPort.instr : InPort → Nat → Instr
  | .dec, v => .uncompress (BitVec.ofNat 8 v)
  | .enc, v => .compress (BitVec.ofNat 16 v)

/-- The decoder: total on every word on every input port, and it rejects by name. -/
def decode (p : InPort) (w : BusWord) : Except DecodeReject Instr :=
  if w.length = p.width then
    match BusWord.value? w with
    | some v => .ok (p.instr v)
    | none => .error .undefinedBit
  else .error .wrongWidth

/-- The encoding of an operation: the pair (input port, the word driven on it) of rule R35. -/
def encode : Instr → InPort × BusWord
  | .uncompress c => (.dec, BusWord.ofNat 8 c.toNat)
  | .compress m => (.enc, BusWord.ofNat 16 m.toNat)

/-- The script line that drives an operation: `DEC <c>` or `ENC <m>` (rule R35). -/
def Instr.line (i : Instr) : Line := .drive (encode i).1 (encode i).2

/-- The port of the row of spec/opcode_table.json that has `nbits` bits: 16 is `COMPRESS`, 8 is `UNCOMPRESS`. No row has any
other width; such a word is laid on `dec_in`, which refuses its width (log 14). -/
def tablePort (nbits : Nat) : InPort := if nbits = 16 then .enc else .dec

/-- The word of a table row whose bits are `w`. A `w` that does not fit `nbits` bits is laid on more wires than any port has,
so that the decoder refuses it (log 14). -/
def tableWord (nbits w : Nat) : BusWord :=
  BusWord.ofNat (if w < 2 ^ nbits then nbits else nbits + 17) w

/-- The operation this decoder reads from a word of `nbits` bits numbered as spec/opcode_table.json numbers them. -/
def decodeTableWord (nbits w : Nat) : Option Instr :=
  match decode (tablePort nbits) (tableWord nbits w) with
  | .ok i => some i
  | .error _ => none

end Sys2Proof
end

