-- ==== Sys2Proof/Machine/Operands.lean ====
section
/-! DEFINITION. The operators of the spec's pseudocode, on unbounded natural numbers (rule R9), and the realisations of `msb`
that rule R44 names. The shifts and bitwise operators of rule R9 are Lean's own on Nat. -/

namespace Sys2Proof.Machine

/-- `v[hi:lo]`, which is `(v >> lo) & (2^(hi-lo+1) - 1)` (rules R7, R9). -/
def bits (v hi lo : Nat) : Nat := (v >>> lo) &&& (2 ^ (hi - lo + 1) - 1)

/-- `msb(v)`: for `v >= 1`, the index of the highest set bit (rules R9, R44). The pseudocode never asks it of 0. -/
def msb (v : Nat) : Nat := Nat.log2 v

/-- `zext_N(v)`: `v` as an N-bit unsigned value (rule R9, which requires `v < 2^N`). -/
def zext (n v : Nat) : BitVec n := BitVec.ofNat n v

/-- The source software's exponent search: shift right until the running value is 1, counting the shifts (rule R44). The
first argument bounds the number of shifts. -/
def msbSearch : Nat → Nat → Nat
  | 0, _ => 0
  | n + 1, v => if v = 1 then 0 else msbSearch n (v >>> 1) + 1

/-- The priority encoder of rule R44: the highest of the bits `n` down to 1 that is set, else 0. -/
def msbPriority (v : Nat) : Nat → Nat
  | 0 => 0
  | n + 1 => if v.testBit (n + 1) then n + 1 else msbPriority v n

/-- How many of the bits `n-1`, `n-2`, ... are 0 before the first that is 1. -/
def leadingZeros (v : Nat) : Nat → Nat
  | 0 => 0
  | n + 1 => if v.testBit n then 0 else leadingZeros v n + 1

/-- The leading-zero counter of rule R44, over 16 bits. -/
def clz16 (m : Magnitude) : Nat := leadingZeros m.toNat 16

end Sys2Proof.Machine
end

