-- ==== Sys2Proof/Machine/State.lean ====
section
/-! DEFINITION. The state of one instance of the block together with the test bench at its ports, and the reasons a step can
stop.

The block itself has no state (rules R12 to R17, R19, R20). What stands here is what its two input ports carry, which
rule R35 says they keep from one transaction to the next, and the test bench that drives them. The two output ports hold
nothing of their own (rule R19) and are computed from the inputs: State.decOut in Machine/Decoder.lean and State.encOut in
Machine/Encoder.lean (log 1, log 2). -/

namespace Sys2Proof.Machine

/-- One instance and its test bench. -/
structure State where
  /-- What `dec_in[7:0]` carries; `none` is an undriven port (rules R18, R35, R66). -/
  decIn : Option Code
  /-- What `enc_in[15:0]` carries; `none` is an undriven port (rules R18, R35, R66). -/
  encIn : Option Magnitude
  /-- The lines of the transaction script that are still to run, the next one first (rule R35). -/
  script : List Line
  /-- The verdicts of the `EXPECT` lines that have run, the oldest first (rule R35, log 7). -/
  verdicts : List Verdict
  deriving DecidableEq, Repr

/-- A fault of the block: there is none. "The block raises no synchronous exception. No input to either unit traps, faults or
signals an error" (rule R54), and no item of spec/93_implementation_defined.md is treated as a fault. -/
inductive Fault
  deriving DecidableEq, Repr

/-- What a step does not run. No operation raises any of these (rule R54): all but the first are raised by a test-bench line
or a system transaction that is no input of the block. -/
inductive Refusal where
  /-- Raised by an arm of exec that has no meaning yet; no arm is such an arm. Safe. -/
  | notModelled (mnemonic : String)
  /-- Raised by a line that drives a word with an X or Z bit: "the model refuses it, and does not guess an output" (rule R66,
  decision D18). Safe. -/
  | undefinedBit (p : InPort)
  /-- Raised by a line that drives a word of another width than its port's: a unit takes no "narrower or wider form"
  (rule R24). Safe. -/
  | wrongWidth (p : InPort)
  /-- Raised by a chaining line whose source port is not settled, because its input was never driven: there is no "present
  settled value" (rule R35) and any value may stand there (rule R66). Safe (log 6). -/
  | unsettledSource (p : OutPort)
  /-- Raised by a system transaction for an instance the system does not have (rule R62). Safe (log 15). -/
  | noSuchInstance (k : Nat)
  deriving DecidableEq, Repr

/-- The machine before its first transaction: every input undriven ("A script starts with every input undriven", rule R35),
no line to run. The block has no reset and nothing to reset (rules R20, R65; log 3, log 5). -/
def State.reset : State :=
  { decIn := none, encIn := none, script := [], verdicts := [] }

end Sys2Proof.Machine
end

