-- ==== Sys2Proof/Machine/Ops.lean ====
section
/-! DEFINITION. The operations on the state: putting a word on an input port, and noting an `EXPECT` line's verdict. The block
has no memory (rule R21), no register (rule R12) and no exception to take or to return from (rules R54, R57, R58), so there
is no operation for any of these. -/

namespace Sys2Proof.Machine

/-- Drive `dec_in` with `c`. The port keeps the value until a later line drives it again (rule R35). -/
def State.driveDec (c : Code) (s : State) : State := { s with decIn := some c }

/-- Drive `enc_in` with `m`. The port keeps the value until a later line drives it again (rule R35). -/
def State.driveEnc (m : Magnitude) (s : State) : State := { s with encIn := some m }

/-- Go on to the rest of the script (rule R35). -/
def State.withScript (ls : List Line) (s : State) : State := { s with script := ls }

/-- Note the verdict of an `EXPECT` line, which has no effect on the block (rule R35). -/
def State.record (v : Verdict) (s : State) : State := { s with verdicts := s.verdicts ++ [v] }

/-- What an `EXPECT` line finds: `out` is the settled value of the port, if it is settled. -/
def judge {n : Nat} (out : Option (BitVec n)) (expected : BitVec n) : Verdict :=
  match out with
  | none => .unsettled
  | some v => if v = expected then .holds else .fails

end Sys2Proof.Machine
end

