-- ==== Sys2Proof/Machine/Decoder.lean ====
section
/-! DEFINITION. The unit `micro_float_decoder`: `UNCOMPRESS` (rules R36 to R40). -/

namespace Sys2Proof.Machine

/-- Steps 1 to 4 of rule R36, on unbounded naturals (rule R9). -/
def uncompressNat (c : Nat) : Nat :=
  if c < 8 then 0
  else
    let e := bits c 7 4
    let f := bits c 3 0
    let s := 0x10 ||| f
    if e ≥ 4 then s <<< (e - 4) else s >>> (4 - e)

/-- `UNCOMPRESS(c)` (rule R36): `dec_out <= zext_16(r)`. -/
def uncompress (c : Code) : Magnitude := zext 16 (uncompressNat c.toNat)

/-- The port `dec_out`: the settled value is `UNCOMPRESS` of what `dec_in` carries, at every time and of nothing else (rules
R18, R19, R20). While `dec_in` is undriven there is no settled value to observe (rule R66, item I4; log 4). -/
def State.decOut (s : State) : Option Magnitude := s.decIn.map uncompress

/-- `UNCOMPRESS` on `c`: `dec_in` is driven with `c` and `dec_out` settles to `UNCOMPRESS(c)`, in one indivisible step (rules
R24, R35, R36, R68). No flag is written and nothing is raised (rules R14, R54). -/
def execUncompress (c : Code) (s : State) : Host.Outcome State Fault Refusal :=
  .next (s.driveDec c)

end Sys2Proof.Machine
end

