-- ==== Sys2Proof/Config.lean ====
section
/-! DEFINITION. What the spec leaves to an implementation or to an analysis: the open parameters of rule R6 and the analysis
parameter TOP_CARRY of decision D11. No free value stands here: every result of an operation is stated (rules R10, R33). -/

namespace Sys2Proof

/-- The open parameters of rule R6. "A model takes them as arguments, and no rule of the function depends on them": they are
arguments of Machine/Settling.lean and Machine/System.lean, and of nothing that computes an output. -/
structure Params where
  /-- `T_DEC`, the decoder's propagation delay, in ticks (log 10). -/
  tDec : Nat
  /-- `T_ENC`, the encoder's propagation delay, in ticks (log 10). -/
  tEnc : Nat
  /-- `N_INST`, the number of instances of the block in a system. -/
  nInst : Nat
  deriving DecidableEq, Repr

/-- The analysis parameter `TOP_CARRY` (decision D11, item I3): what becomes of the 9-bit result 0x100 on the 8-bit output.
`saturate` is this hardware (rule R48); `wrap` models software that narrows the result, and is not this hardware. -/
inductive TopCarry where
  | saturate
  | wrap
  deriving DecidableEq, Repr

end Sys2Proof
end

