-- ==== Sys2Proof/Machine/Flags.lean ====
section
/-! DEFINITION. The block has no flags (rule R14). The two one-bit signals here are internal nodes of the encoder, which no
port shows and which hold nothing between evaluations (rules R14, R19). -/

namespace Sys2Proof.Machine

/-- The guard bit: bit 0 of the rounding window (rule R46). -/
def guardSet (w : Nat) : Bool := (w &&& 1) == 1

/-- The carry: bit 6 (mask 0x40) of the rounded window (rule R47). -/
def carrySet (w : Nat) : Bool := (w &&& 0x40) != 0

end Sys2Proof.Machine
end

