-- ==== Sys2Proof/Machine/Encoder.lean ====
section
/-! DEFINITION. The unit `micro_float_encoder`: `COMPRESS` (rules R42 to R48). -/

namespace Sys2Proof.Machine

/-- The code of exponent `e` and the significand's four low bits (rules R29, R45, R46). -/
def packCode (e s : Nat) : Nat := (e <<< 4) ||| (s &&& 0xF)

/-- Step 4 of rule R42, the exact band (rule R45): the leading 1 of `m` moves to bit 4. -/
def compressExact (m e : Nat) : Nat := packCode e (m <<< (4 - e))

/-- The rounding window: integer bit 5, fraction bits 4:1, guard bit 0 (rule R46). -/
def window (m e : Nat) : Nat := m >>> (e - 5)

/-- Round to nearest on the guard bit alone, ties up (rule R46). -/
def roundWindow (w : Nat) : Nat := if guardSet w then w + 2 else w

/-- Carry renormalisation of the exponent and the rounded window (rule R47). -/
def renormalise (e w : Nat) : Nat × Nat := if carrySet w then (e + 1, w >>> 1) else (e, w)

/-- Step 5 of rule R42, the rounding band (rules R46, R47): the guard bit is dropped from the renormalised window. -/
def compressRounding (m e : Nat) : Nat :=
  let ew := renormalise e (roundWindow (window m e))
  packCode ew.1 (ew.2 >>> 1)

/-- The result of steps 1 to 5 of rule R42 before the top-band clamp, on unbounded naturals (rule R9): at most 0x100
(rule R52). -/
def compressRaw (m : Nat) : Nat :=
  if m = 0 then 0x00
  else if m = 1 then 0x08
  else
    let e := msb m
    if e < 5 then compressExact m e else compressRounding m e

/-- What becomes of the raw result on the 8-bit output: the clamp of rule R48, or the narrowing that decision D11 sets
against it. -/
def TopCarry.narrow (t : TopCarry) (r : Nat) : Code :=
  match t with
  | .saturate => if r > 0xFF then 0xFF else zext 8 r
  | .wrap => zext 8 (r &&& 0xFF)

/-- The encoder under a value of the analysis parameter TOP_CARRY (decision D11). -/
def compressWith (t : TopCarry) (m : Magnitude) : Code := TopCarry.narrow t (compressRaw m.toNat)

/-- `COMPRESS(m)` (rules R42, R48): this hardware is `TOP_CARRY = SATURATE` (log 8). -/
def compress (m : Magnitude) : Code := compressWith .saturate m

/-- The port `enc_out`: the settled value is `COMPRESS` of what `enc_in` carries, at every time and of nothing else (rules
R18, R19, R20). While `enc_in` is undriven there is no settled value to observe (rule R66, item I4; log 4). -/
def State.encOut (s : State) : Option Code := s.encIn.map compress

/-- `COMPRESS` on `m`: `enc_in` is driven with `m` and `enc_out` settles to `COMPRESS(m)`, in one indivisible step (rules R24,
R35, R42, R68). No flag is written and nothing is raised (rules R14, R54). -/
def execCompress (m : Magnitude) (s : State) : Host.Outcome State Fault Refusal :=
  .next (s.driveEnc m)

end Sys2Proof.Machine
end

