-- ==== Sys2Proof/Machine/Dispatch.lean ====
section
/-! DEFINITION. exec: one arm for each operation of rule R31. -/

namespace Sys2Proof.Machine

def exec (i : Instr) (s : State) : Host.Outcome State Fault Refusal :=
  match i with
  | .uncompress c => Sys2Proof.Machine.execUncompress c s
  | .compress m => Sys2Proof.Machine.execCompress m s

end Sys2Proof.Machine
end

