-- ==== Sys2Proof/Machine/Script.lean ====
section
/-! DEFINITION. What one line of a transaction script does (rule R35). -/

namespace Sys2Proof.Machine

/-- The refusal that stands for a word the decoder rejects on port `p`. -/
def refusalOf (p : InPort) : DecodeReject → Refusal
  | .wrongWidth => .wrongWidth p
  | .undefinedBit => .undefinedBit p

/-- `DEC <c>` and `ENC <m>`: the word on the port is read as an operation, and that operation runs (rules R31, R35). A word
that is no input of the block is refused (rules R24, R66). -/
def runDrive (p : InPort) (w : BusWord) (s : State) : Host.Outcome State Fault Refusal :=
  match decode p w with
  | .ok i => exec i s
  | .error r => .refused (refusalOf p r)

/-- `ENC dec_out`: `COMPRESS` on the present settled value of `dec_out` (rule R35). -/
def runEncDecOut (s : State) : Host.Outcome State Fault Refusal :=
  match s.decOut with
  | some m => exec (.compress m) s
  | none => .refused (.unsettledSource .dec)

/-- `DEC enc_out`: `UNCOMPRESS` on the present settled value of `enc_out` (rule R35). -/
def runDecEncOut (s : State) : Host.Outcome State Fault Refusal :=
  match s.encOut with
  | some c => exec (.uncompress c) s
  | none => .refused (.unsettledSource .enc)

/-- One line, run on the state whose script no longer holds it. -/
def runLine (l : Line) (s : State) : Host.Outcome State Fault Refusal :=
  match l with
  | .drive p w => runDrive p w s
  | .encDecOut => runEncDecOut s
  | .decEncOut => runDecEncOut s
  | .expectDecOut v => .next (s.record (judge s.decOut v))
  | .expectEncOut v => .next (s.record (judge s.encOut v))

end Sys2Proof.Machine
end

