-- ==== Sys2Proof/Machine/Step.lean ====
section
/-! DEFINITION. One step: the next line of the transaction script. The block has no program counter and fetches nothing (rules
R13, R28); the test bench's next line is what the machine does next (rule R35). -/

namespace Sys2Proof.Machine

/-- One step. With no line left the inputs keep what they carry and nothing changes (rules R13, R35; log 5). -/
def step (s : State) : Host.Outcome State Fault Refusal :=
  match s.script with
  | [] => .next s
  | l :: ls => runLine l (s.withScript ls)

/-- The state whose next line drives the word `w` of a table row with `nbits` bits on the port of that row (log 5, log 14). -/
def State.withFetchWord (s : State) (nbits w : Nat) : State :=
  s.withScript (.drive (tablePort nbits) (tableWord nbits w) :: s.script)

end Sys2Proof.Machine
end

