-- ==== Sys2Proof/Machine/Canonical.lean ====
section
/-! DEFINITION. The canonical codes of rule R32 and the interval form of the encoder of rule R53, its second, independent
definition. -/

namespace Sys2Proof.Machine

/-- A code the encoder can output (rule R32), read from the rule's own list: two codes at exponent 0, two at 1, four at 2,
eight at 3 and every code at 4 to 15. -/
def isCanonical (c : Code) : Bool :=
  match c.exponent with
  | 0 => c.fraction == 0 || c.fraction == 8
  | 1 => c.fraction % 8 == 0
  | 2 => c.fraction % 4 == 0
  | 3 => c.fraction % 2 == 0
  | _ => true

/-- The canonical code "just below" a code, or the code itself where it is canonical (rule R32). -/
def canonicalBelow (c : Code) : Code :=
  match c.exponent with
  | 0 => zext 8 (8 * (c.fraction / 8))
  | 1 => zext 8 (16 + 8 * (c.fraction / 8))
  | 2 => zext 8 (32 + 4 * (c.fraction / 4))
  | 3 => zext 8 (48 + 2 * (c.fraction / 2))
  | _ => c

/-- `lo(c)` of rule R53, for a canonical code. -/
def intervalLo (c : Code) : Nat :=
  let v := (uncompress c).toNat
  if c.toNat ≤ 0x50 then v
  else if c.toNat = 0xFF then 0xF400
  else if c.fraction = 0 then v - 2 ^ (c.exponent - 6)
  else v - 2 ^ (c.exponent - 5)

/-- `hi(c)` of rule R53, for a canonical code. -/
def intervalHi (c : Code) : Nat :=
  let v := (uncompress c).toNat
  if c.toNat ≤ 0x50 then v
  else if c.toNat = 0xFF then 0xFFFF
  else v + 2 ^ (c.exponent - 5) - 1

end Sys2Proof.Machine
end

