-- ==== Sys2Proof/Machine/ScriptText.lean ====
section
/-! DEFINITION. The text of a transaction script (rule R35): reading a line, writing a line, and placing a script in the
state. Text is a list of characters; words are set apart by spaces and lines by line ends (log 16). -/

namespace Sys2Proof.Machine

/-- The parts of a text between the characters `sep`, without the empty ones. `part` is the part being read, reversed. -/
def splitAtChar (sep : Char) : List Char → List Char → List (List Char)
  | [], part => if part.isEmpty then [] else [part.reverse]
  | c :: cs, part =>
    if c = sep then
      if part.isEmpty then splitAtChar sep cs [] else part.reverse :: splitAtChar sep cs []
    else splitAtChar sep cs (c :: part)

/-- The value of a digit, if `c` is one of the base's digits. -/
def digitValue (base : Nat) (c : Char) : Option Nat :=
  let n := c.toNat
  let v := if 48 ≤ n ∧ n ≤ 57 then n - 48
    else if 65 ≤ n ∧ n ≤ 70 then n - 55
    else if 97 ≤ n ∧ n ≤ 102 then n - 87
    else base
  if v < base then some v else none

/-- The value of a row of digits read after the value `acc`. -/
def digitsValue (base : Nat) : Nat → List Char → Option Nat
  | acc, [] => some acc
  | acc, c :: cs =>
    match digitValue base c with
    | some v => digitsValue base (base * acc + v) cs
    | none => none

/-- "Numbers are hexadecimal with `0x` or decimal without it" (rule R35). -/
def readNumber : List Char → Option Nat
  | '0' :: 'x' :: d :: ds => digitsValue 16 0 (d :: ds)
  | d :: ds => digitsValue 10 0 (d :: ds)
  | [] => none

/-- A number that is a word of `n` bits; a number that does not fit is refused (rules R24, R34). -/
def readWord (n : Nat) (cs : List Char) : Option (BitVec n) :=
  match readNumber cs with
  | some v => if v < 2 ^ n then some (BitVec.ofNat n v) else none
  | none => none

/-- The rest of a text that begins with `start`. -/
def afterPrefix : List Char → List Char → Option (List Char)
  | [], cs => some cs
  | a :: as, c :: cs => if a = c then afterPrefix as cs else none
  | _ :: _, [] => none

/-- What stands between `start` and a closing `)` that ends the text. -/
def callArgument (start cs : List Char) : Option (List Char) :=
  match afterPrefix start cs with
  | none => none
  | some rest =>
    match rest.reverse with
    | ')' :: arg => some arg.reverse
    | _ => none

/-- The names of rule R35. -/
def wordEnc : List Char := ['E', 'N', 'C']
def wordDec : List Char := ['D', 'E', 'C']
def wordExpect : List Char := ['E', 'X', 'P', 'E', 'C', 'T']
def wordDecOut : List Char := ['d', 'e', 'c', '_', 'o', 'u', 't']
def wordEncOut : List Char := ['e', 'n', 'c', '_', 'o', 'u', 't']
def wordCompress : List Char := ['c', 'o', 'm', 'p', 'r', 'e', 's', 's', '(']
def wordUncompress : List Char := ['u', 'n', 'c', 'o', 'm', 'p', 'r', 'e', 's', 's', '(']

/-- The line `ENC <m>`. -/
def encLine (m : Magnitude) : Line := (Instr.compress m).line

/-- The line `DEC <c>`. -/
def decLine (c : Code) : Line := (Instr.uncompress c).line

/-- `compress(m)` and `uncompress(c)` mean the same as `ENC m` and `DEC c` (rule R35). -/
def readCall (w : List Char) : Option Line :=
  match callArgument wordUncompress w with
  | some arg => (readWord 8 arg).map decLine
  | none =>
    match callArgument wordCompress w with
    | some arg => (readWord 16 arg).map encLine
    | none => none

/-- A line of two words: `ENC <m>`, `DEC <c>`, `ENC dec_out` or `DEC enc_out` (rule R35). -/
def readDrive (op arg : List Char) : Option Line :=
  if op = wordEnc then
    if arg = wordDecOut then some .encDecOut else (readWord 16 arg).map encLine
  else if op = wordDec then
    if arg = wordEncOut then some .decEncOut else (readWord 8 arg).map decLine
  else none

/-- A line of four words: `EXPECT <port> = <v>`, on an output port (rule R35). -/
def readExpect (op port eq arg : List Char) : Option Line :=
  if op = wordExpect ∧ eq = ['='] then
    if port = wordDecOut then (readWord 16 arg).map .expectDecOut
    else if port = wordEncOut then (readWord 8 arg).map .expectEncOut
    else none
  else none

/-- Read one line of a script (rule R35). -/
def readLine (cs : List Char) : Option Line :=
  match splitAtChar ' ' cs [] with
  | [w] => readCall w
  | [op, arg] => readDrive op arg
  | [op, port, eq, arg] => readExpect op port eq arg
  | _ => none

/-- Read lines one by one; none where one of them is no line. -/
def readLines : List (List Char) → Option (List Line)
  | [] => some []
  | cs :: rest =>
    match readLine cs, readLines rest with
    | some l, some ls => some (l :: ls)
    | _, _ => none

/-- Read a script, one transaction a line (rule R35). -/
def readScript (cs : List Char) : Option (List Line) := readLines (splitAtChar '\n' cs [])

/-- The hexadecimal digit of `v`, in capitals (rule R35's examples). -/
def hexDigit (v : Nat) : Char := if v < 10 then Char.ofNat (48 + v) else Char.ofNat (55 + v)

/-- The low `4 * n` bits of `v` as `n` hexadecimal digits, the highest first. -/
def hexDigits : Nat → Nat → List Char
  | 0, _ => []
  | n + 1, v => hexDigits n (v / 16) ++ [hexDigit (v % 16)]

/-- `0x` and the digits. -/
def hexNumber (n v : Nat) : List Char := '0' :: 'x' :: hexDigits n v

/-- Write a line, its number zero-padded to the port's width. A driven word that is no input of the block has no text: the
notation has no X, no Z and no other width. -/
def writeLine : Line → Option (List Char)
  | .drive p w =>
    match decode p w with
    | .ok (.uncompress c) => some (wordDec ++ ' ' :: hexNumber 2 c.toNat)
    | .ok (.compress m) => some (wordEnc ++ ' ' :: hexNumber 4 m.toNat)
    | .error _ => none
  | .encDecOut => some (wordEnc ++ ' ' :: wordDecOut)
  | .decEncOut => some (wordDec ++ ' ' :: wordEncOut)
  | .expectDecOut v => some (wordExpect ++ ' ' :: wordDecOut ++ [' ', '=', ' '] ++ hexNumber 4 v.toNat)
  | .expectEncOut v => some (wordExpect ++ ' ' :: wordEncOut ++ [' ', '=', ' '] ++ hexNumber 2 v.toNat)

/-- Place a script in the state, from outside the machine (log 5). A text that is no script places nothing. DESIGN CHOICE (log
17): rule R35 speaks only of a script that starts with every input undriven, which is this on State.reset; on a bench that has
already run, the script takes the place of the lines that wait, and what the inputs carry and the verdicts stay. -/
def State.load (text : List Char) (s : State) : Option State :=
  match readScript text with
  | some ls => some { s with script := ls }
  | none => none

end Sys2Proof.Machine
end

