-- ==== Sys2Proof/Machine/Settling.lean ====
section
/-! DEFINITION. What rules R66 and R68 say of the physical outputs in time, apart from step, whose evaluation has zero delay
(rules R6, R68). A waveform gives what a port carries at each tick (log 10). While an input is undriven, has an unknown bit or
has not been stable for the unit's delay, nothing constrains the output: any value, changing at any time. -/

namespace Sys2Proof.Machine

/-- The port has carried the fully defined word `v` at every tick from `t - d` to `t` (rule R66, "stable ... for at
least"). -/
def HeldFor {α : Type} (wave : Nat → Option α) (d t : Nat) (v : α) : Prop :=
  d ≤ t ∧ ∀ k, k ≤ d → wave (t - k) = some v

/-- Output waveforms that a decoder with delay `tDec` can show for an input waveform (rules R66, R68). -/
def DecoderConforms (tDec : Nat) (inp : Nat → Option Code) (out : Nat → Magnitude) : Prop :=
  ∀ t c, HeldFor inp tDec t c → out t = uncompress c

/-- Output waveforms that an encoder with delay `tEnc` can show for an input waveform (rules R66, R68). -/
def EncoderConforms (tEnc : Nat) (inp : Nat → Option Magnitude) (out : Nat → Code) : Prop :=
  ∀ t m, HeldFor inp tEnc t m → out t = compress m

/-- The waveform of a port that carries the `n`-th value for the `n`-th `len` ticks: transactions in slots of equal
length. -/
def slotWave {α : Type} (len : Nat) (vals : Nat → Option α) (t : Nat) : Option α := vals (t / len)

/-- The last tick of the `n`-th slot, where a consumer samples "only after it has settled" (rule R68). -/
def slotEnd (len n : Nat) : Nat := n * len + (len - 1)

end Sys2Proof.Machine
end

