-- ==== Sys2Proof/Machine/System.lean ====
section
/-! DEFINITION. A system of `N_INST` instances of the block (rules R6, R62). The instances share no state, have no identifier
of their own and need no start-up; a transaction names the instance the integrator drives by its place in the list
(log 15). -/

namespace Sys2Proof.Machine

/-- The instances of a system. -/
abbrev System := List State

/-- One evaluation at one instance. -/
abbrev Transaction := Nat × Instr

/-- A system before its first transaction. -/
def System.reset (p : Params) : System := List.replicate p.nInst State.reset

/-- One evaluation at instance `k`; every other instance is as it was (rule R62). -/
def System.transact (sys : System) (k : Nat) (i : Instr) : Host.Outcome System Fault Refusal :=
  match sys[k]? with
  | none => .refused (.noSuchInstance k)
  | some s =>
    match exec i s with
    | .next s' => .next (sys.set k s')
    | .fault f => .fault f
    | .refused r => .refused r

/-- A schedule of evaluations, at any instances and in any order (rule R26). -/
def System.run (sys : System) : List Transaction → Host.Outcome System Fault Refusal
  | [] => .next sys
  | (k, i) :: rest =>
    match sys.transact k i with
    | .next sys' => sys'.run rest
    | .fault f => .fault f
    | .refused r => .refused r

/-- What `dec_in` of instance `k` carries after a schedule, from what it carried before: the word of the schedule's last
`UNCOMPRESS` at `k`. -/
def lastDecIn (k : Nat) : List Transaction → Option Code → Option Code
  | [], before => before
  | (j, .uncompress c) :: rest, before => lastDecIn k rest (if j = k then some c else before)
  | (_, .compress _) :: rest, before => lastDecIn k rest before

/-- What `enc_in` of instance `k` carries after a schedule, from what it carried before: the word of the schedule's last
`COMPRESS` at `k`. -/
def lastEncIn (k : Nat) : List Transaction → Option Magnitude → Option Magnitude
  | [], before => before
  | (j, .compress m) :: rest, before => lastEncIn k rest (if j = k then some m else before)
  | (_, .uncompress _) :: rest, before => lastEncIn k rest before

end Sys2Proof.Machine
end

