-- ==== Sys2Proof/Safety.lean ====
section
/-! DEFINITION. What counts as a safe run: a run of a script in which no line is refused. -/

namespace Sys2Proof.Machine

/-- The script can run to its end: every word it drives is an input of its port (rules R24, R66), and every chaining line
stands after its source's input has been driven (rule R35). `dec` and `enc` say whether `dec_in` and `enc_in` are driven. -/
def scriptSafe (dec enc : Bool) : List Line → Bool
  | [] => true
  | .drive .dec w :: ls => BusWord.wf .dec w && scriptSafe true enc ls
  | .drive .enc w :: ls => BusWord.wf .enc w && scriptSafe dec true ls
  | .encDecOut :: ls => dec && scriptSafe dec true ls
  | .decEncOut :: ls => enc && scriptSafe true enc ls
  | .expectDecOut _ :: ls => scriptSafe dec enc ls
  | .expectEncOut _ :: ls => scriptSafe dec enc ls

/-- The state's script can run to its end. -/
def State.safe (s : State) : Bool := scriptSafe s.decIn.isSome s.encIn.isSome s.script

/-- Every `EXPECT` line run so far held. -/
def State.passing (s : State) : Bool := s.verdicts.all (· == .holds)

end Sys2Proof.Machine
end

