-- ==== Sys2Proof/Certificates/Slice0/Obligations.lean ====
section
/-! DEFINITION. The statements for the provers. Each docstring names the rule of spec/ it formalises; a statement that rests
on a choice of the model's own names the log entry. -/

open Sys2Proof Sys2Proof.Machine

/-! ### The decoder -/

/-- Rule R36. `UNCOMPRESS` runs on every code in every state and leaves everything but `dec_in` and `dec_out` alone. The
output is the closed form of the rule, it is the shifted significand of steps 3 and 4, and it is at most 0xF800. -/
def Obligations.UncompressResult : Prop :=
  ∀ (c : Code) (s : State), ∃ (t : State) (r : Magnitude),
    exec (.uncompress c) s = .next t ∧ t = { s with decIn := some c } ∧ t.decOut = some r ∧
    (c.toNat < 8 → r = 0) ∧
    (8 ≤ c.toNat → r.toNat = (16 + c.fraction) * 2 ^ c.exponent / 16) ∧
    (8 ≤ c.toNat → 4 ≤ c.exponent → r.toNat = (0x10 ||| c.fraction) <<< (c.exponent - 4)) ∧
    (8 ≤ c.toNat → c.exponent < 4 → r.toNat = (0x10 ||| c.fraction) >>> (4 - c.exponent)) ∧
    r.toNat ≤ 0xF800 ∧ (c = 0xFF → r = 0xF800) ∧ (c = 0x9A → r = 0x0340)

/-- Rule R37. The zero band is exponent 0 with fraction 0 to 7, and every code of it gives 0. -/
def Obligations.UncompressZeroBand : Prop :=
  (∀ c : Code, c.toNat < 8 ↔ c.exponent = 0 ∧ c.fraction < 8) ∧
  ∀ (c : Code) (s : State), c.toNat < 8 →
    ∃ t, exec (.uncompress c) s = .next t ∧ t.decOut = some 0x0000

/-- Rule R38. Codes 0x08 to 0x0F give 1, the significand shifted right by 4; and on all of exponent 0 the glossary's reading,
`f/16` rounded half-up, is the same function. -/
def Obligations.UncompressExponentZero : Prop :=
  (∀ (c : Code) (s : State), 0x08 ≤ c.toNat → c.toNat ≤ 0x0F →
    ∃ t, exec (.uncompress c) s = .next t ∧ t.decOut = some 0x0001 ∧ (0x10 ||| c.fraction) >>> 4 = 1) ∧
  ∀ (c : Code) (s : State), c.exponent = 0 →
    ∃ t r, exec (.uncompress c) s = .next t ∧ t.decOut = some r ∧ r.toNat = (c.fraction + 8) / 16

/-- Rule R39. At exponents 1 to 3 the low `4 - e` fraction bits are discarded, so two codes of one exponent give the same
output exactly where they agree above those bits, and the outputs are the rule's. -/
def Obligations.UncompressRightShiftBand : Prop :=
  ∀ (c : Code) (s : State), 1 ≤ c.exponent → c.exponent ≤ 3 →
    ∃ t r, exec (.uncompress c) s = .next t ∧ t.decOut = some r ∧
      r.toNat = (16 + c.fraction) >>> (4 - c.exponent) ∧
      (c.exponent = 1 → r.toNat = 2 + c.fraction / 8) ∧
      (c.exponent = 2 → r.toNat = 4 + c.fraction / 4) ∧
      (c.exponent = 3 → r.toNat = 8 + c.fraction / 2) ∧
      ∀ c' : Code, c'.exponent = c.exponent →
        (uncompress c' = r ↔
          c'.fraction / 2 ^ (4 - c.exponent) = c.fraction / 2 ^ (4 - c.exponent))

/-- Rule R40. At exponents 4 to 15 the output is exact: the five significant bits `1 f[3:0]` stand at bits `e` down to
`e - 4`, the bits below are zero, and the next code of the exponent gives an output `2^(e-4)` higher. -/
def Obligations.UncompressLeftShiftBand : Prop :=
  ∀ (c : Code) (s : State), 4 ≤ c.exponent →
    ∃ t r, exec (.uncompress c) s = .next t ∧ t.decOut = some r ∧
      r.toNat = (16 + c.fraction) <<< (c.exponent - 4) ∧
      r.toNat / 2 ^ (c.exponent - 4) = 16 + c.fraction ∧
      (∀ k, k < c.exponent - 4 → r.toNat.testBit k = false) ∧
      ∀ c' : Code, c'.toNat = c.toNat + 1 → c'.exponent = c.exponent →
        (uncompress c').toNat = r.toNat + 2 ^ (c.exponent - 4)

/-- Rule R41. The decoder's output set with its maximum, its monotonicity with the strict rise at each exponent, and its 208
distinct outputs, one for each canonical code. -/
def Obligations.DecoderRangeMonotoneDistinct : Prop :=
  (∀ v : Nat, (∃ c : Code, (uncompress c).toNat = v) ↔
    v ≤ 31 ∨ ∃ e f, 4 ≤ e ∧ e ≤ 15 ∧ f ≤ 15 ∧ v = (16 + f) * 2 ^ (e - 4)) ∧
  (∀ c : Code, (uncompress c).toNat ≤ 0xF800) ∧ uncompress 0xFF = 0xF800 ∧
  (∀ c c' : Code, c.toNat ≤ c'.toNat → (uncompress c).toNat ≤ (uncompress c').toNat) ∧
  (∀ c c' : Code, c.exponent < c'.exponent → (uncompress c).toNat < (uncompress c').toNat) ∧
  (∀ c : Code, ∃! c' : Code, isCanonical c' = true ∧ uncompress c' = uncompress c) ∧
  ((List.range 256).filter fun n => isCanonical (BitVec.ofNat 8 n)).length = 208

/-! ### The encoder -/

/-- Rule R42. `COMPRESS` runs on every magnitude in every state and leaves everything but `enc_in` and `enc_out` alone. The
output is what the rule's five steps and its clamp give, said in plain arithmetic: `e` is any number with
`2^e <= m < 2^(e+1)`, `w` the window and `w'` the rounded window, whose bit 6 is `64 <= w'`. -/
def Obligations.CompressResult : Prop :=
  ∀ (m : Magnitude) (s : State), ∃ (t : State) (r : Code),
    exec (.compress m) s = .next t ∧ t = { s with encIn := some m } ∧ t.encOut = some r ∧
    (m.toNat = 0 → r = 0x00) ∧ (m.toNat = 1 → r = 0x08) ∧
    (∀ e, 2 ≤ m.toNat → 2 ^ e ≤ m.toNat → m.toNat < 2 ^ (e + 1) → e < 5 →
      r.toNat = 16 * e + (m.toNat * 2 ^ (4 - e)) % 16) ∧
    (∀ e w w', 2 ^ e ≤ m.toNat → m.toNat < 2 ^ (e + 1) → 5 ≤ e →
      w = m.toNat / 2 ^ (e - 5) → w' = (if w % 2 = 1 then w + 2 else w) →
      r.toNat = min 0xFF
        (if 64 ≤ w' then 16 * (e + 1) + w' / 2 / 2 % 16 else 16 * e + w' / 2 % 16)) ∧
    (m = 0x3E80 → r = 0xDF)

/-- Rules R42, R46, R47 and R48 together, in another form than the rules give: on the rounding band the code is the magnitude
divided by the grid step and rounded half up, counted on from the first code of its exponent, and clamped. The carry into the
next exponent and the clamp of the top band need no case of their own. -/
def Obligations.CompressIsRoundedDivision : Prop :=
  ∀ (m : Magnitude) (s : State) (e : Nat), 5 ≤ e → 2 ^ e ≤ m.toNat → m.toNat < 2 ^ (e + 1) →
    ∃ t r, exec (.compress m) s = .next t ∧ t.encOut = some r ∧
      r.toNat = min 0xFF (16 * e + ((m.toNat + 2 ^ (e - 5)) / 2 ^ (e - 4) - 16))

/-- Rule R43. The two special cases: each is the lowest code that decodes to its magnitude, and without the second, step 4
with `e = 0` would give 0x00, which decodes to 0. -/
def Obligations.CompressSpecialCases : Prop :=
  (∀ s : State, ∃ t, exec (.compress 0) s = .next t ∧ t.encOut = some 0x00) ∧
  (∀ s : State, ∃ t, exec (.compress 1) s = .next t ∧ t.encOut = some 0x08) ∧
  uncompress 0x00 = 0 ∧ uncompress 0x08 = 1 ∧
  (∀ c : Code, uncompress c = 1 → 0x08 ≤ c.toNat) ∧
  compressExact 1 0 = 0x00

/-- Rule R44. The exponent of every magnitude from 2 on, its bounds, its definition by shifts, and that the source's search, a
priority encoder and a leading-zero counter all give it. -/
def Obligations.ExponentIsHighestSetBit : Prop :=
  ∀ m : Magnitude, 2 ≤ m.toNat →
    2 ^ msb m.toNat ≤ m.toNat ∧ m.toNat < 2 ^ (msb m.toNat + 1) ∧
    1 ≤ msb m.toNat ∧ msb m.toNat ≤ 15 ∧
    m.toNat >>> msb m.toNat = 1 ∧ (∀ e, m.toNat >>> e = 1 → e ≤ msb m.toNat) ∧
    msbSearch 16 m.toNat = msb m.toNat ∧
    msbPriority m.toNat 15 = msb m.toNat ∧
    msb m.toNat = 15 - clz16 m

/-- Rule R45. The exact band: the significand is 16 to 31, the code is the exponent and the significand's low four bits, the
low `4 - e` fraction bits are zero, the code is canonical, and every magnitude from 0 to 31 decodes back to itself. -/
def Obligations.CompressExactBand : Prop :=
  (∀ (m : Magnitude) (s : State), 2 ≤ m.toNat → m.toNat ≤ 31 →
    ∃ t r, exec (.compress m) s = .next t ∧ t.encOut = some r ∧
      1 ≤ msb m.toNat ∧ msb m.toNat ≤ 4 ∧
      16 ≤ m.toNat <<< (4 - msb m.toNat) ∧ m.toNat <<< (4 - msb m.toNat) ≤ 31 ∧
      r.exponent = msb m.toNat ∧ r.fraction + 16 = m.toNat <<< (4 - msb m.toNat) ∧
      r.fraction % 2 ^ (4 - msb m.toNat) = 0 ∧ isCanonical r = true) ∧
  (∀ m : Magnitude, m.toNat ≤ 31 → uncompress (compress m) = m) ∧
  [2, 3, 4, 5, 6, 7, 8, 9, 15, 16, 31].map (fun n => compress (BitVec.ofNat 16 n)) =
    [0x10, 0x18, 0x20, 0x24, 0x28, 0x2C, 0x30, 0x32, 0x3E, 0x40, 0x4F]

/-- Rule R46. The rounding band: the window's six bits are bits `e` down to `e - 5` of the magnitude, the guard bit is 1
exactly when the discarded part `D` is at least half a grid step `H`, the kept significand then rises by one, the code without
a carry is the exponent and the rounded fraction, the bits below the guard bit are never read, and a tie rounds up. -/
def Obligations.CompressRoundingBand : Prop :=
  (∀ m : Magnitude, 32 ≤ m.toNat →
    5 ≤ msb m.toNat ∧
    32 ≤ window m.toNat (msb m.toNat) ∧ window m.toNat (msb m.toNat) ≤ 63 ∧
    (∀ k, k < 6 →
      (window m.toNat (msb m.toNat)).testBit k = m.toNat.testBit (msb m.toNat - 5 + k)) ∧
    (guardSet (window m.toNat (msb m.toNat)) = true ↔
      2 ^ (msb m.toNat - 5) ≤ m.toNat % 2 ^ (msb m.toNat - 4)) ∧
    roundWindow (window m.toNat (msb m.toNat)) / 2 =
      m.toNat / 2 ^ (msb m.toNat - 4) +
        (if 2 ^ (msb m.toNat - 5) ≤ m.toNat % 2 ^ (msb m.toNat - 4) then 1 else 0)) ∧
  (∀ (m : Magnitude) (s : State), 32 ≤ m.toNat →
    carrySet (roundWindow (window m.toNat (msb m.toNat))) = false →
    ∃ t r, exec (.compress m) s = .next t ∧ t.encOut = some r ∧
      r.exponent = msb m.toNat ∧
      r.fraction + 16 = roundWindow (window m.toNat (msb m.toNat)) / 2) ∧
  (∀ m m' : Magnitude, 32 ≤ m.toNat → 32 ≤ m'.toNat → msb m.toNat = msb m'.toNat →
    m.toNat / 2 ^ (msb m.toNat - 5) = m'.toNat / 2 ^ (msb m.toNat - 5) → compress m = compress m') ∧
  compress 132 = 0x71 ∧ uncompress 0x70 = 128 ∧ uncompress 0x71 = 136

/-- Rule R47. A carry happens exactly when the window is 63, which rounding makes 65, on the magnitudes from `63 * 2^(e-5)`
up to the exponent's last; there are `2^(e-5)` of them at exponent `e` and 2047 in all. The shifted window is 32, which has no
second carry, and below exponent 15 the code is the first of the next exponent and decodes to `2^(e+1)`. -/
def Obligations.CompressCarry : Prop :=
  (∀ m : Magnitude, 32 ≤ m.toNat →
    (carrySet (roundWindow (window m.toNat (msb m.toNat))) = true ↔
      window m.toNat (msb m.toNat) = 63) ∧
    (window m.toNat (msb m.toNat) = 63 ↔ 63 * 2 ^ (msb m.toNat - 5) ≤ m.toNat)) ∧
  roundWindow 63 = 65 ∧ (∀ e, renormalise e 65 = (e + 1, 32)) ∧ carrySet 32 = false ∧
  (∀ (m : Magnitude) (s : State), 32 ≤ m.toNat → msb m.toNat ≤ 14 →
    window m.toNat (msb m.toNat) = 63 →
    ∃ t r, exec (.compress m) s = .next t ∧ t.encOut = some r ∧
      r.exponent = msb m.toNat + 1 ∧ r.fraction = 0 ∧
      (uncompress r).toNat = 2 ^ (msb m.toNat + 1)) ∧
  (∀ e, 5 ≤ e → 2 ^ (e + 1) - 63 * 2 ^ (e - 5) = 2 ^ (e - 5)) ∧
  (([5, 6, 7, 8, 9, 10, 11, 12, 13, 14, 15].map fun e => 2 ^ (e - 5)).sum = 2047)

/-- Rule R48. In the top band the arithmetic result is 0x100 and the encoder outputs 0xFF, as it does on 0xF400 to 0xFBFF;
0xFF decodes to 0xF800, the error is at most 2047 and reaches it at 0xFFFF, and 0xFF is the only code within the near-inverse
bound of every magnitude of the band. This hardware is TOP_CARRY = SATURATE. -/
def Obligations.CompressTopBand : Prop :=
  (∀ (m : Magnitude) (s : State), 0xFC00 ≤ m.toNat →
    compressRaw m.toNat = 0x100 ∧ m.toNat - 0xF800 ≤ 2047 ∧
    ∃ t, exec (.compress m) s = .next t ∧ t.encOut = some 0xFF) ∧
  (∀ (m : Magnitude) (s : State), 0xF400 ≤ m.toNat → m.toNat ≤ 0xFBFF →
    ∃ t, exec (.compress m) s = .next t ∧ t.encOut = some 0xFF) ∧
  (∀ m : Magnitude, compress m = compressWith .saturate m) ∧
  uncompress 0xFF = 0xF800 ∧ 0xFFFF - (uncompress (compress 0xFFFF)).toNat = 2047 ∧
  (∀ c : Code,
    (∀ m : Magnitude, 0xFC00 ≤ m.toNat →
      (((uncompress c).toNat : Int) - m.toNat).natAbs ≤ 2 ^ (c.exponent - 4)) → c = 0xFF)

/-- The tie-breaking policy of rule R49, which no implementation may change. Among the codes that decode to a magnitude up to
31 the encoder gives the lowest; an exact tie in the rounding band rounds upward, up to where rule R48 clamps. -/
def Obligations.TieBreakingPolicy : Prop :=
  (∀ (m : Magnitude) (s : State), m.toNat ≤ 31 →
    ∃ t r, exec (.compress m) s = .next t ∧ t.encOut = some r ∧ uncompress r = m ∧
      ∀ c : Code, uncompress c = m → r.toNat ≤ c.toNat) ∧
  ∀ (m : Magnitude) (s : State), 32 ≤ m.toNat → m.toNat < 0xFC00 →
    m.toNat % 2 ^ (msb m.toNat - 4) = 2 ^ (msb m.toNat - 5) →
    ∃ t r, exec (.compress m) s = .next t ∧ t.encOut = some r ∧
      (uncompress r).toNat = m.toNat + 2 ^ (msb m.toNat - 5)

/-- Rule R50, the near-inverse bound over every magnitude, with the tighter bounds of its three ranges, and that the first
bound would fail without rule R48. -/
def Obligations.NearInverse : Prop :=
  (∀ m : Magnitude,
    (((uncompress (compress m)).toNat : Int) - m.toNat).natAbs ≤ 2 ^ ((compress m).exponent - 4)) ∧
  (∀ m : Magnitude, m.toNat ≤ 31 → uncompress (compress m) = m) ∧
  (∀ m : Magnitude, 32 ≤ m.toNat → m.toNat ≤ 0xFBFF →
    (((uncompress (compress m)).toNat : Int) - m.toNat).natAbs ≤ 2 ^ (msb m.toNat - 5)) ∧
  (∀ m : Magnitude, 0xFC00 ≤ m.toNat →
    (((uncompress (compress m)).toNat : Int) - m.toNat).natAbs ≤ 2047) ∧
  (((uncompress (compressWith .wrap 0xFFFF)).toNat : Int) - 0xFFFF).natAbs = 65535

/-- Rule R51. The encoder is monotone over the whole domain. -/
def Obligations.CompressMonotone : Prop :=
  ∀ a b : Magnitude, a.toNat < b.toNat → (compress a).toNat ≤ (compress b).toNat

/-- The bounds of rule R52 on the encoder's internal nodes. -/
def Obligations.InternalWidths : Prop :=
  (∀ m : Magnitude, 2 ≤ m.toNat → m.toNat ≤ 31 → m.toNat <<< (4 - msb m.toNat) ≤ 31) ∧
  (∀ m : Magnitude, 32 ≤ m.toNat →
    window m.toNat (msb m.toNat) ≤ 63 ∧
    roundWindow (window m.toNat (msb m.toNat)) ≤ 65 ∧
    (renormalise (msb m.toNat) (roundWindow (window m.toNat (msb m.toNat)))).1 ≤ 16) ∧
  (∀ m : Magnitude, compressRaw m.toNat ≤ 0x100) ∧
  ∀ m : Magnitude, compressRaw m.toNat = 0x100 ↔ 0xFC00 ≤ m.toNat

/-- Rule R53. The table of intervals is a second definition of the encoder and the two are equal: the magnitudes of a
canonical code are exactly its interval. The intervals are in code order, disjoint, and cover every magnitude. -/
def Obligations.CompressIsIntervalTable : Prop :=
  (∀ (c : Code) (m : Magnitude), isCanonical c = true →
    (compress m = c ↔ intervalLo c ≤ m.toNat ∧ m.toNat ≤ intervalHi c)) ∧
  (∀ c c' : Code, isCanonical c = true → isCanonical c' = true → c.toNat < c'.toNat →
    intervalHi c < intervalLo c') ∧
  (∀ m : Magnitude, ∃ c : Code, isCanonical c = true ∧ intervalLo c ≤ m.toNat ∧ m.toNat ≤ intervalHi c) ∧
  ∀ c : Code, isCanonical c = true → intervalLo c ≤ intervalHi c ∧ intervalHi c ≤ 0xFFFF

/-- Rule R32. The encoder outputs exactly the canonical codes, which are the rule's list, 208 of them; each of the 48 others
decodes as the canonical code just below it; a canonical code comes back from its own magnitude; and decoding, encoding and
decoding again is decoding. -/
def Obligations.CanonicalCodes : Prop :=
  (∀ c : Code, (∃ m : Magnitude, compress m = c) ↔ isCanonical c = true) ∧
  (∀ c : Code, isCanonical c = true ↔
    c ∈ ([0x00, 0x08, 0x10, 0x18, 0x20, 0x24, 0x28, 0x2C,
      0x30, 0x32, 0x34, 0x36, 0x38, 0x3A, 0x3C, 0x3E] : List Code) ∨ 0x40 ≤ c.toNat) ∧
  ((List.range 256).filter fun n => isCanonical (BitVec.ofNat 8 n)).length = 208 ∧
  (∀ c : Code, isCanonical c = false →
    isCanonical (canonicalBelow c) = true ∧ (canonicalBelow c).toNat < c.toNat ∧
    (∀ c' : Code, isCanonical c' = true → c'.toNat < c.toNat → c'.toNat ≤ (canonicalBelow c).toNat) ∧
    uncompress c = uncompress (canonicalBelow c)) ∧
  (∀ c : Code, isCanonical c = true → compress (uncompress c) = c) ∧
  ∀ c : Code, uncompress (compress (uncompress c)) = uncompress c

/-- Decision D11: the analysis parameter TOP_CARRY changes nothing below the top band, and in it the narrowing encoder would
give 0x00, which this hardware never does there. -/
def Obligations.TopCarryOnlyInTopBand : Prop :=
  (∀ m : Magnitude, m.toNat < 0xFC00 → compressWith .wrap m = compress m) ∧
  (∀ m : Magnitude, 0xFC00 ≤ m.toNat →
    compressWith .wrap m = 0x00 ∧ compressWith .saturate m = 0xFF ∧ compress m = compressWith .saturate m)

/-! ### Words, operations and their decoding -/

/-- Decoding the encoding of an operation gives the operation, whatever its operand (rules R31, R33, R35). A word as a list of
levels, bit 0 first, is the model's, log 12. -/
def Obligations.DecodeOfEncode : Prop :=
  ∀ i : Instr, decode (encode i).1 (encode i).2 = .ok i

/-- A word that decodes to an operation is that operation's encoding: each word on a port has one meaning (rules R31, R33). A
word as a list of levels, bit 0 first, is the model's, log 12. -/
def Obligations.EncodeOfDecode : Prop :=
  ∀ (p : InPort) (w : BusWord) (i : Instr), decode p w = .ok i → encode i = (p, w)

/-- Wire `k` of a port carries bit `k` of the operand, of weight `2^k` (rules R7, R22). A word as a list of levels, bit 0 first,
is the model's, log 12. -/
def Obligations.WireCarriesItsBit : Prop :=
  (∀ (w : BusWord) (c : Code), decode .dec w = .ok (.uncompress c) →
    ∀ k, k < 8 → w[k]? = some (if c.toNat / 2 ^ k % 2 = 1 then Level.one else Level.zero)) ∧
  ∀ (w : BusWord) (m : Magnitude), decode .enc w = .ok (.compress m) →
    ∀ k, k < 16 → w[k]? = some (if m.toNat / 2 ^ k % 2 = 1 then Level.one else Level.zero)

/-- Rule R29. The exponent is `code[7:4]` and the fraction `code[3:0]`, each 0 to 15, with no bias: together they are the
code. -/
def Obligations.CodeFields : Prop :=
  ∀ c : Code, c.exponent = (c.extractLsb 7 4).toNat ∧ c.fraction = (c.extractLsb 3 0).toNat ∧
    c.exponent ≤ 15 ∧ c.fraction ≤ 15 ∧ c.toNat = 16 * c.exponent + c.fraction

/-- Rule R33. Every fully defined word of a port's width is an input: it selects the port's operation, and that operation runs
in every state and settles its output. None traps and none is undefined. -/
def Obligations.EveryDefinedWordIsAnInput : Prop :=
  (∀ w : BusWord, BusWord.wf .dec w = true → ∃ c, decode .dec w = .ok (.uncompress c) ∧
    ∀ s, ∃ t r, exec (.uncompress c) s = .next t ∧ t.decOut = some r) ∧
  (∀ w : BusWord, BusWord.wf .enc w = true → ∃ m, decode .enc w = .ok (.compress m) ∧
    ∀ s, ∃ t r, exec (.compress m) s = .next t ∧ t.encOut = some r) ∧
  (∀ c : Code, ∃ w, BusWord.wf .dec w = true ∧ decode .dec w = .ok (.uncompress c)) ∧
  ∀ m : Magnitude, ∃ w, BusWord.wf .enc w = true ∧ decode .enc w = .ok (.compress m)

/-- A few words, bit 0 first, written out from rules R7, R29 and R30: 0x9A on `dec_in`, 0x3E80 and 0x0001 on `enc_in`. -/
def Obligations.SampleWordsDecode : Prop :=
  decode .dec [.zero, .one, .zero, .one, .one, .zero, .zero, .one] = .ok (.uncompress 0x9A) ∧
  decode .enc [.zero, .zero, .zero, .zero, .zero, .zero, .zero, .one,
    .zero, .one, .one, .one, .one, .one, .zero, .zero] = .ok (.compress 0x3E80) ∧
  decode .enc [.one, .zero, .zero, .zero, .zero, .zero, .zero, .zero,
    .zero, .zero, .zero, .zero, .zero, .zero, .zero, .zero] = .ok (.compress 0x0001)

/-- What is no input is refused by name: a word of another width than the port's (rule R24; that the model refuses it so is
log 11), and a word of the port's width with an X or Z bit (rule R66). -/
def Obligations.NonInputsAreRefused : Prop :=
  (∀ (s : State) (p : InPort) (w : BusWord) (ls : List Line), s.script = .drive p w :: ls →
    w.length ≠ p.width → step s = .refused (.wrongWidth p)) ∧
  ∀ (s : State) (p : InPort) (w : BusWord) (ls : List Line), s.script = .drive p w :: ls →
    w.length = p.width → (∃ l ∈ w, l = Level.x ∨ l = Level.z) → step s = .refused (.undefinedBit p)

/-- The words of the opcode table's rows: 8 bits are `UNCOMPRESS` and 16 bits `COMPRESS`, each runs as the very next step
with nothing else changed, and no other width or value is a row's word (rule R31; the numbering is log 14). -/
def Obligations.TableWordsRun : Prop :=
  (∀ (c : Code) (s : State), decodeTableWord 8 c.toNat = some (.uncompress c) ∧
    step (s.withFetchWord 8 c.toNat) = exec (.uncompress c) s) ∧
  (∀ (m : Magnitude) (s : State), decodeTableWord 16 m.toNat = some (.compress m) ∧
    step (s.withFetchWord 16 m.toNat) = exec (.compress m) s) ∧
  ∀ nbits w, (nbits ≠ 8 ∧ nbits ≠ 16) ∨ 2 ^ nbits ≤ w → decodeTableWord nbits w = none

/-! ### Evaluations: their outcome, their frame, their independence -/

/-- Rule R54. An operation has exactly one outcome, a next state; the block has no fault to raise, and no step of any script
ends in one. -/
def Obligations.OperationsNeverStop : Prop :=
  (∀ (i : Instr) (s : State), ∃ t, exec i s = .next t) ∧
  (∀ (i : Instr) (s : State) (f : Fault), exec i s ≠ .fault f) ∧
  (∀ (i : Instr) (s : State) (r : Refusal), exec i s ≠ .refused r) ∧
  ∀ (s : State) (f : Fault), step s ≠ .fault f

/-- The frame of `UNCOMPRESS`: the encoder's ports, the script and the verdicts are as they were (rules R14, R18, R70). -/
def Obligations.UncompressFrame : Prop :=
  ∀ (c : Code) (s t : State), exec (.uncompress c) s = .next t →
    t.encIn = s.encIn ∧ t.encOut = s.encOut ∧ t.script = s.script ∧ t.verdicts = s.verdicts

/-- The frame of `COMPRESS`: the decoder's ports, the script and the verdicts are as they were (rules R14, R18, R70). -/
def Obligations.CompressFrame : Prop :=
  ∀ (m : Magnitude) (s t : State), exec (.compress m) s = .next t →
    t.decIn = s.decIn ∧ t.decOut = s.decOut ∧ t.script = s.script ∧ t.verdicts = s.verdicts

/-- "`dec_out` depends only on `dec_in`, and `enc_out` depends only on `enc_in`" (rule R18), and an operation's result does not
depend on the state it starts from (rule R13). -/
def Obligations.OutputsDependOnOwnInput : Prop :=
  (∀ s s' : State, s.decIn = s'.decIn → s.decOut = s'.decOut) ∧
  (∀ s s' : State, s.encIn = s'.encIn → s.encOut = s'.encOut) ∧
  (∀ (c : Code) (s s' t t' : State), exec (.uncompress c) s = .next t → exec (.uncompress c) s' = .next t' →
    t.decOut = t'.decOut) ∧
  ∀ (m : Magnitude) (s s' t t' : State), exec (.compress m) s = .next t → exec (.compress m) s' = .next t' →
    t.encOut = t'.encOut

/-- Evaluation is idempotent (rule R24), and an evaluation of each unit gives the same state in either order: neither has
priority and neither reads the other (rules R56, R70). -/
def Obligations.EvaluationsIdempotentAndCommute : Prop :=
  (∀ (i : Instr) (s t : State), exec i s = .next t → exec i t = .next t) ∧
  ∀ (c : Code) (m : Magnitude) (s : State), ∃ t u v,
    exec (.uncompress c) s = .next t ∧ exec (.compress m) t = .next v ∧
    exec (.compress m) s = .next u ∧ exec (.uncompress c) u = .next v ∧
    v.decOut = some (uncompress c) ∧ v.encOut = some (compress m)

/-- For any schedule of evaluations over the instances of a system, every evaluation runs, and each output of each instance
equals the unit's function applied to that instance's own last input (rule R26). That evaluations happen one after another,
each in one step, is the model's choice, log 9, and so is a system as a list of States named by their place, log 15. -/
def Obligations.ScheduleIndependence : Prop :=
  ∀ (sys : System) (sched : List Transaction), (∀ e ∈ sched, e.1 < sys.length) →
    ∃ sys' : System, sys.run sched = .next sys' ∧ sys'.length = sys.length ∧
      ∀ (k : Nat) (s : State), sys[k]? = some s → ∃ s', sys'[k]? = some s' ∧
        s'.decOut = (lastDecIn k sched s.decIn).map uncompress ∧
        s'.encOut = (lastEncIn k sched s.encIn).map compress ∧
        s'.script = s.script ∧ s'.verdicts = s.verdicts

/-- A system of any number of instances, each undriven at first, whose transactions touch no other instance (rule R62). That
a transaction at an instance the system lacks is refused is the model's choice, log 15. -/
def Obligations.InstancesAreIsolated : Prop :=
  (∀ p : Params, (System.reset p).length = p.nInst ∧ ∀ s ∈ System.reset p, s = State.reset) ∧
  (∀ (sys sys' : System) (k : Nat) (i : Instr), sys.transact k i = .next sys' →
    ∀ j, j ≠ k → sys'[j]? = sys[j]?) ∧
  ∀ (sys : System) (k : Nat) (i : Instr),
    (k < sys.length → ∃ sys', sys.transact k i = .next sys') ∧
    (sys.length ≤ k → sys.transact k i = .refused (.noSuchInstance k))

/-! ### The machine at reset and its steps -/

/-- At the start of a script every input is undriven (rule R35), so no output is settled (rules R20, R66). That an undriven
port is the reset value and that no line waits is log 3 and log 5. -/
def Obligations.ResetIsUndriven : Prop :=
  State.reset.decIn = none ∧ State.reset.encIn = none ∧ State.reset.decOut = none ∧
  State.reset.encOut = none ∧ State.reset.script = [] ∧ State.reset.verdicts = []

/-- A step runs the operation that the next line's word decodes to, on the state with that line gone (rules R31, R35). -/
def Obligations.StepRunsDecodedWord : Prop :=
  ∀ (s : State) (p : InPort) (w : BusWord) (ls : List Line) (i : Instr),
    s.script = .drive p w :: ls → decode p w = .ok i → step s = exec i { s with script := ls }

/-- `ENC dec_out` and `DEC enc_out` drive the one unit's input with the present settled value of the other's output (rule
R35). -/
def Obligations.StepRunsChainedLine : Prop :=
  (∀ (s : State) (ls : List Line) (c : Code), s.script = .encDecOut :: ls → s.decIn = some c →
    step s = exec (.compress (uncompress c)) { s with script := ls }) ∧
  ∀ (s : State) (ls : List Line) (m : Magnitude), s.script = .decEncOut :: ls → s.encIn = some m →
    step s = exec (.uncompress (compress m)) { s with script := ls }

/-- A chaining line whose source is not settled is refused. The model's reading of rules R35 and R66, log 6. -/
def Obligations.ChainFromUndrivenRefused : Prop :=
  (∀ (s : State) (ls : List Line), s.script = .encDecOut :: ls → s.decIn = none →
    step s = .refused (.unsettledSource .dec)) ∧
  ∀ (s : State) (ls : List Line), s.script = .decEncOut :: ls → s.encIn = none →
    step s = .refused (.unsettledSource .enc)

/-- An `EXPECT` line has no effect on the block (rule R35): it goes by, every port stays, and its verdict is noted. The verdicts
are the model's, log 7. -/
def Obligations.ExpectLeavesBlockAlone : Prop :=
  (∀ (s : State) (ls : List Line) (v : Magnitude), s.script = .expectDecOut v :: ls →
    ∃ (t : State) (r : Verdict), step s = .next t ∧ t.decIn = s.decIn ∧ t.encIn = s.encIn ∧ t.decOut = s.decOut ∧
      t.encOut = s.encOut ∧ t.script = ls ∧ t.verdicts = s.verdicts ++ [r] ∧
      (r = .holds ↔ s.decOut = some v) ∧ (r = .unsettled ↔ s.decIn = none)) ∧
  ∀ (s : State) (ls : List Line) (v : Code), s.script = .expectEncOut v :: ls →
    ∃ (t : State) (r : Verdict), step s = .next t ∧ t.decIn = s.decIn ∧ t.encIn = s.encIn ∧ t.decOut = s.decOut ∧
      t.encOut = s.encOut ∧ t.script = ls ∧ t.verdicts = s.verdicts ++ [r] ∧
      (r = .holds ↔ s.encOut = some v) ∧ (r = .unsettled ↔ s.encIn = none)

/-- "An input keeps its last driven value until a later line drives it again" (rule R35): over every step, in every state. -/
def Obligations.InputKeepsItsLastValue : Prop :=
  ∀ s t : State, step s = .next t →
    (t.decIn ≠ s.decIn → ∃ l ls, s.script = l :: ls ∧ t.script = ls ∧
      (l = .decEncOut ∨ ∃ w, l = .drive .dec w)) ∧
    (t.encIn ≠ s.encIn → ∃ l ls, s.script = l :: ls ∧ t.script = ls ∧
      (l = .encDecOut ∨ ∃ w, l = .drive .enc w)) ∧
    (s.decIn.isSome → t.decIn.isSome) ∧ (s.encIn.isSome → t.encIn.isSome)

/-- A step runs exactly one line; with none left nothing changes (rules R13, R35; the idle step is log 5). -/
def Obligations.StepTakesOneLine : Prop :=
  (∀ s : State, s.script = [] → step s = .next s) ∧
  ∀ (s t : State) (l : Line) (ls : List Line), s.script = l :: ls → step s = .next t →
    t.script = ls ∧ s.verdicts <+: t.verdicts

/-- In a safe state, whose script drives only inputs of the block and chains only from settled outputs, a step answers a next
state (rules R35, R54, R66). With no line left that is the model's idle step (log 5), and over an `EXPECT` line it is the
model's noting of a verdict (log 7). -/
def Obligations.SafeStateSteps : Prop :=
  ∀ s : State, s.safe = true → ∃ t, step s = .next t

/-- Every step keeps a safe state safe: an invariant over all states, not only those a run from reset reaches (rules R35,
R66). With no line left the step is the model's idle step (log 5), and over an `EXPECT` line it is the model's noting of a
verdict (log 7). -/
def Obligations.StepKeepsSafe : Prop :=
  ∀ s t : State, s.safe = true → step s = .next t → t.safe = true

/-- The state after reset is safe, and so is that state with any script of well-formed lines none of which chains (rules R35,
R66). The reset state is the model's, log 3 and log 5. -/
def Obligations.ResetIsSafe : Prop :=
  State.reset.safe = true ∧
  ∀ ls : List Line, (∀ l ∈ ls, l.wf = true ∧ l ≠ .encDecOut ∧ l ≠ .decEncOut) →
    State.safe { State.reset with script := ls } = true

/-- Exactly the safe states run on for any number of steps, and their script is then done after as many steps as it has lines
(rules R35, R54, R66). That an unsafe state is refused rests on the model's refusals, a chaining line whose source is not
settled (log 6) and a word of another width or with an undefined bit (log 11), and that a done script runs on is the model's
idle step (log 5). -/
def Obligations.SafeIffNeverRefused : Prop :=
  (∀ s : State, s.safe = true ↔ ∀ n, ∃ t, Host.Core.run Sys2Proof.core n s = .next t) ∧
  ∀ s : State, s.safe = true →
    ∃ t : State, Host.Core.run Sys2Proof.core s.script.length s = .next t ∧ t.script = []

/-- A canonical code comes back through the block's own ports: `DEC c` and then `ENC dec_out` leave `c` on `enc_out`; and for
every code, `DEC c`, `ENC dec_out` and `DEC enc_out` leave on `dec_out` what `DEC c` left there (rules R32, R35). -/
def Obligations.RoundTripThroughPorts : Prop :=
  (∀ (c : Code) (s : State), isCanonical c = true → s.script = [decLine c, .encDecOut] →
    ∃ t : State, Host.Core.run Sys2Proof.core 2 s = .next t ∧ t.encOut = some c ∧ t.script = []) ∧
  ∀ (c : Code) (s : State), s.script = [decLine c, .encDecOut, .decEncOut] →
    ∃ t : State, Host.Core.run Sys2Proof.core 3 s = .next t ∧ t.decOut = some (uncompress c) ∧ t.script = []

/-! ### Settling in time -/

/-- Rules R66 and R68. A test bench that holds each transaction's input for more than `T_DEC` and `T_ENC` ticks and samples at
the end samples the settled outputs of the model's states, whatever conforming block it drives and whatever its glitches. The
ticks are log 10. -/
def Obligations.SettledSampleIsModelOutput : Prop :=
  ∀ (p : Params) (dIn : Nat → Option Code) (dOut : Nat → Magnitude)
    (eIn : Nat → Option Magnitude) (eOut : Nat → Code),
    DecoderConforms p.tDec dIn dOut → EncoderConforms p.tEnc eIn eOut →
    ∀ (trace : Nat → State) (len : Nat), p.tDec < len → p.tEnc < len →
      dIn = slotWave len (fun n => (trace n).decIn) → eIn = slotWave len (fun n => (trace n).encIn) →
      ∀ n, ((trace n).decIn ≠ none → (trace n).decOut = some (dOut (slotEnd len n))) ∧
        ((trace n).encIn ≠ none → (trace n).encOut = some (eOut (slotEnd len n)))

/-- Rules R66 and R68. While an input has not carried one fully defined word for the unit's delay, its output may be any value:
a conforming block can show each one. The ticks are log 10. -/
def Obligations.UnsettledOutputIsAnyValue : Prop :=
  (∀ (p : Params) (inp : Nat → Option Code) (t : Nat) (v : Magnitude),
    (∀ c, ¬ HeldFor inp p.tDec t c) → ∃ out, DecoderConforms p.tDec inp out ∧ out t = v) ∧
  (∀ (p : Params) (inp : Nat → Option Magnitude) (t : Nat) (v : Code),
    (∀ m, ¬ HeldFor inp p.tEnc t m) → ∃ out, EncoderConforms p.tEnc inp out ∧ out t = v) ∧
  (∀ (p : Params) (inp : Nat → Option Code) (t : Nat), inp t = none → ∀ c, ¬ HeldFor inp p.tDec t c) ∧
  ∀ (p : Params) (inp : Nat → Option Magnitude) (t : Nat), inp t = none → ∀ m, ¬ HeldFor inp p.tEnc t m

/-! ### The script's text -/

/-- Every well-formed line has a text, and the text is read as that line again (rule R35; its layout is log 16). -/
def Obligations.ScriptTextRoundTrip : Prop :=
  ∀ l : Line, l.wf = true → ∃ text, writeLine l = some text ∧ readLine text = some l

/-- Every line read from a text is well formed, whatever the text: a number that does not fit its port is no line (rules R24,
R33, R35; log 16). -/
def Obligations.ReadLinesAreWellFormed : Prop :=
  ∀ (text : List Char) (l : Line), readLine text = some l → l.wf = true

/-- `compress(m)` and `uncompress(c)` mean the same as `ENC m` and `DEC c` (rule R35), for every operand. -/
def Obligations.FunctionalNotation : Prop :=
  (∀ m : Magnitude,
    readLine (wordCompress ++ hexNumber 4 m.toNat ++ [')']) = some (encLine m) ∧
    readLine (wordEnc ++ ' ' :: hexNumber 4 m.toNat) = some (encLine m)) ∧
  ∀ c : Code,
    readLine (wordUncompress ++ hexNumber 2 c.toNat ++ [')']) = some (decLine c) ∧
    readLine (wordDec ++ ' ' :: hexNumber 2 c.toNat) = some (decLine c)
end

