-- ==== Sys2Proof/Laws/Arith.lean ====
section
/-! SUPPORT. The operators and the internal nodes of the two units in plain arithmetic. -/

namespace Sys2Proof.Machine

theorem bits_eq (v hi lo : Nat) : bits v hi lo = v / 2 ^ lo % 2 ^ (hi - lo + 1) := by
  simp [bits, Nat.shiftRight_eq_div_pow, Nat.and_two_pow_sub_one_eq_mod]

/-- Setting the implicit bit adds 16 to a fraction. -/
theorem implicit_or {f : Nat} (h : f < 16) : 0x10 ||| f = 16 + f := by
  have := Nat.two_pow_add_eq_or_of_lt (i := 4) (b := f) (by simpa using h) 1
  simpa using this.symm

theorem guardSet_iff (w : Nat) : guardSet w = true ↔ w % 2 = 1 := by
  simp [guardSet, Nat.and_one_is_mod]

/-- The carry bit of a window of at most seven bits. -/
theorem carrySet_iff {w : Nat} (h : w < 128) : carrySet w = true ↔ 64 ≤ w := by
  have key : w &&& 0x40 = 64 * (w / 64 % 2) := by
    have := Nat.and_two_pow (n := w) (i := 6)
    rw [Nat.testBit_eq_decide_div_mod_eq] at this
    rcases Nat.mod_two_eq_zero_or_one (w / 64) with h | h <;> simpa [h] using this
  simp only [carrySet, key, bne_iff_ne]
  omega

theorem packCode_eq (e s : Nat) : packCode e s = 16 * e + s % 16 := by
  have hlt : s % 16 < 2 ^ 4 := Nat.mod_lt _ (by decide)
  have hand : s &&& 0xF = s % 16 := Nat.and_two_pow_sub_one_eq_mod s 4
  have := Nat.shiftLeft_add_eq_or_of_lt hlt e
  rw [packCode, hand, ← this, Nat.shiftLeft_eq]
  omega

/-- The exponent of a magnitude (rule R44). -/
theorem msb_bounds {m : Nat} (h : m ≠ 0) : 2 ^ msb m ≤ m ∧ m < 2 ^ (msb m + 1) :=
  ⟨Nat.log2_self_le h, Nat.lt_log2_self⟩

/-- The exponent is the only number with those bounds. -/
theorem msb_unique {m e : Nat} (hlo : 2 ^ e ≤ m) (hhi : m < 2 ^ (e + 1)) : msb m = e := by
  have hm : m ≠ 0 := by
    have := Nat.two_pow_pos e
    omega
  exact (Nat.log2_eq_iff hm).mpr ⟨hlo, hhi⟩

/-- The decoder's zero band. -/
theorem uncompressNat_zeroBand {c : Nat} (h : c < 8) : uncompressNat c = 0 := by
  simp [uncompressNat, h]

/-- The decoder above the zero band. -/
theorem uncompressNat_shift {c : Nat} (h8 : 8 ≤ c) (h256 : c < 256) :
    uncompressNat c =
      if 4 ≤ c / 16 then (16 + c % 16) * 2 ^ (c / 16 - 4) else (16 + c % 16) / 2 ^ (4 - c / 16) := by
  have he : bits c 7 4 = c / 16 := by rw [bits_eq]; omega
  have hf : bits c 3 0 = c % 16 := by rw [bits_eq]; omega
  have hs := implicit_or (Nat.mod_lt c (show 16 > 0 by decide))
  simp only [uncompressNat, Nat.not_lt.mpr h8, he, hf, hs, if_false, ge_iff_le, Nat.shiftLeft_eq,
    Nat.shiftRight_eq_div_pow]

/-- The rounding window in plain arithmetic. -/
theorem window_eq (m e : Nat) : window m e = m / 2 ^ (e - 5) := Nat.shiftRight_eq_div_pow ..

theorem roundWindow_eq (w : Nat) : roundWindow w = if w % 2 = 1 then w + 2 else w := by
  by_cases h : w % 2 = 1 <;> simp [roundWindow, guardSet_iff, h]

/-- The exact band in plain arithmetic. -/
theorem compressExact_eq (m e : Nat) : compressExact m e = 16 * e + m * 2 ^ (4 - e) % 16 := by
  rw [compressExact, packCode_eq, Nat.shiftLeft_eq]

/-- The rounding band from its rounded window. -/
theorem compressRounding_eq (m e : Nat) (h : roundWindow (window m e) < 128) :
    compressRounding m e =
      if 64 ≤ roundWindow (window m e) then 16 * (e + 1) + roundWindow (window m e) / 4 % 16
      else 16 * e + roundWindow (window m e) / 2 % 16 := by
  by_cases hc : 64 ≤ roundWindow (window m e)
  · have := (carrySet_iff h).mpr hc
    simp [compressRounding, renormalise, this, hc, packCode_eq, Nat.shiftRight_eq_div_pow, Nat.div_div_eq_div_mul]
  · have : carrySet (roundWindow (window m e)) = false := by
      rw [Bool.eq_false_iff, ne_eq, carrySet_iff h]; exact hc
    simp [compressRounding, renormalise, this, hc, packCode_eq, Nat.shiftRight_eq_div_pow]

/-- The clamp, on a result that fits the output. -/
theorem narrow_of_le {t : TopCarry} {r : Nat} (h : r ≤ 0xFF) : TopCarry.narrow t r = BitVec.ofNat 8 r := by
  have h1 : ¬ r > 0xFF := by omega
  have h2 : r &&& 0xFF = r := by
    rw [Nat.and_two_pow_sub_one_eq_mod r 8]; omega
  cases t <;> simp [TopCarry.narrow, zext, h1, h2]

/-- The clamp, above the output's range (rule R48). -/
theorem narrow_saturate_of_gt {r : Nat} (h : r > 0xFF) : TopCarry.narrow .saturate r = 0xFF := by
  simp [TopCarry.narrow, h]

end Sys2Proof.Machine
end

