-- ==== Sys2Proof/Laws/Decode.lean ====
section
/-! SUPPORT. Words, their values, and when the decoder accepts one. -/

namespace Sys2Proof

@[simp] theorem Level.bit?_ofBool (b : Bool) : (Level.ofBool b).bit? = some b := by cases b <;> rfl

@[simp] theorem Level.defined_ofBool (b : Bool) : (Level.ofBool b).defined = true := by cases b <;> rfl

theorem Level.bit?_isSome (l : Level) : l.bit?.isSome = l.defined := by cases l <;> rfl

theorem Level.ofBool_of_bit? {l : Level} {b : Bool} (h : l.bit? = some b) : Level.ofBool b = l := by
  cases l <;> simp_all [Level.bit?] <;> subst h <;> rfl

@[simp] theorem BusWord.length_ofNat (n v : Nat) : (BusWord.ofNat n v).length = n := by
  induction n generalizing v with
  | zero => rfl
  | succ n ih => simp [BusWord.ofNat, ih]

theorem BusWord.defined_ofNat (n v : Nat) : (BusWord.ofNat n v).all Level.defined = true := by
  induction n generalizing v with
  | zero => rfl
  | succ n ih => simp [BusWord.ofNat, ih]

/-- The word of `n` wires that carries `v` has the value of `v`'s low `n` bits. -/
theorem BusWord.value?_ofNat (n v : Nat) : BusWord.value? (BusWord.ofNat n v) = some (v % 2 ^ n) := by
  induction n generalizing v with
  | zero => simp [BusWord.ofNat, BusWord.value?, Nat.mod_one]
  | succ n ih =>
    have hsplit : v % 2 ^ (n + 1) = v % 2 + 2 * (v / 2 % 2 ^ n) := by
      rw [Nat.pow_succ', Nat.mod_mul]
    have hbit : (v % 2 == 1).toNat = v % 2 := by
      rcases Nat.mod_two_eq_zero_or_one v with h | h <;> simp [h]
    simp [BusWord.ofNat, BusWord.value?, ih, hsplit, hbit]

/-- A word has a value exactly where every bit is defined. -/
theorem BusWord.value?_isSome (w : BusWord) : (BusWord.value? w).isSome = w.all Level.defined := by
  induction w with
  | nil => rfl
  | cons l w ih =>
    rw [List.all_cons, ← ih, ← Level.bit?_isSome]
    cases hl : l.bit? <;> cases hw : BusWord.value? w <;> simp [BusWord.value?, hl, hw]

/-- A value fits the word's wires. -/
theorem BusWord.value?_lt {w : BusWord} {v : Nat} (h : BusWord.value? w = some v) : v < 2 ^ w.length := by
  induction w generalizing v with
  | nil =>
    cases h
    simp
  | cons l w ih =>
    simp only [BusWord.value?] at h
    split at h
    · rename_i b u hb hu
      have := ih hu
      have hb1 : b.toNat ≤ 1 := Bool.toNat_le b
      cases h
      rw [List.length_cons, Nat.pow_succ]
      omega
    · cases h

/-- A word is its value's word. -/
theorem BusWord.ofNat_value? {w : BusWord} {v : Nat} (h : BusWord.value? w = some v) :
    BusWord.ofNat w.length v = w := by
  induction w generalizing v with
  | nil => rfl
  | cons l w ih =>
    simp only [BusWord.value?] at h
    split at h
    · rename_i b u hb hu
      cases h
      have hb1 := Bool.toNat_le b
      have h2 : (b.toNat + 2 * u) / 2 = u := by omega
      have h1 : ((b.toNat + 2 * u) % 2 == 1) = b := by cases b <;> simp
      rw [List.length_cons, BusWord.ofNat, h1, h2, ih hu, Level.ofBool_of_bit? hb]
    · cases h

/-- When the decoder accepts a word, and as what. -/
theorem decode_eq_ok {p : InPort} {w : BusWord} {i : Instr} :
    decode p w = .ok i ↔ w.length = p.width ∧ ∃ v, BusWord.value? w = some v ∧ i = p.instr v := by
  unfold decode
  split
  · rename_i h
    cases hv : BusWord.value? w <;> simp [h, eq_comm]
  · rename_i h
    simp [h]

/-- The decoder accepts exactly the well-formed words. -/
theorem decode_isOk (p : InPort) (w : BusWord) : (∃ i, decode p w = .ok i) ↔ BusWord.wf p w = true := by
  simp only [decode_eq_ok, BusWord.wf, Bool.and_eq_true, decide_eq_true_eq, ← BusWord.value?_isSome,
    Option.isSome_iff_exists]
  constructor
  · rintro ⟨i, h, v, hv, _⟩
    exact ⟨h, v, hv⟩
  · rintro ⟨h, v, hv⟩
    exact ⟨_, h, v, hv, rfl⟩

end Sys2Proof
end

