-- ==== Sys2Proof/Laws/PerInstr.lean ====
section
/-! SUPPORT. Statements made of every operation as syntax, one lemma for each constructor. -/

namespace Sys2Proof.Laws.EncodesInput

/-- An operation's encoding is an input of its port: the port's width, every bit defined (rules R24, R31, R66). -/
def Statement (i : Instr) : Prop := BusWord.wf (encode i).1 (encode i).2 = true

theorem uncompress (c : Code) : Statement (.uncompress c) := by
  simp [Statement, encode, BusWord.wf, InPort.width, BusWord.defined_ofNat]

theorem compress (m : Magnitude) : Statement (.compress m) := by
  simp [Statement, encode, BusWord.wf, InPort.width, BusWord.defined_ofNat]

end Sys2Proof.Laws.EncodesInput
end

