-- ==== Sys2Proof/Laws/State.lean ====
section
/-! SUPPORT. What each operation on the state does to each field. -/

namespace Sys2Proof.Machine

@[simp] theorem State.driveDec_decIn (c : Code) (s : State) : (s.driveDec c).decIn = some c := rfl
@[simp] theorem State.driveDec_encIn (c : Code) (s : State) : (s.driveDec c).encIn = s.encIn := rfl
@[simp] theorem State.driveDec_script (c : Code) (s : State) : (s.driveDec c).script = s.script := rfl
@[simp] theorem State.driveDec_verdicts (c : Code) (s : State) : (s.driveDec c).verdicts = s.verdicts := rfl

@[simp] theorem State.driveEnc_decIn (m : Magnitude) (s : State) : (s.driveEnc m).decIn = s.decIn := rfl
@[simp] theorem State.driveEnc_encIn (m : Magnitude) (s : State) : (s.driveEnc m).encIn = some m := rfl
@[simp] theorem State.driveEnc_script (m : Magnitude) (s : State) : (s.driveEnc m).script = s.script := rfl
@[simp] theorem State.driveEnc_verdicts (m : Magnitude) (s : State) : (s.driveEnc m).verdicts = s.verdicts := rfl

@[simp] theorem State.withScript_decIn (ls : List Line) (s : State) : (s.withScript ls).decIn = s.decIn := rfl
@[simp] theorem State.withScript_encIn (ls : List Line) (s : State) : (s.withScript ls).encIn = s.encIn := rfl
@[simp] theorem State.withScript_script (ls : List Line) (s : State) : (s.withScript ls).script = ls := rfl
@[simp] theorem State.withScript_verdicts (ls : List Line) (s : State) : (s.withScript ls).verdicts = s.verdicts := rfl

@[simp] theorem State.record_decIn (v : Verdict) (s : State) : (s.record v).decIn = s.decIn := rfl
@[simp] theorem State.record_encIn (v : Verdict) (s : State) : (s.record v).encIn = s.encIn := rfl
@[simp] theorem State.record_script (v : Verdict) (s : State) : (s.record v).script = s.script := rfl
@[simp] theorem State.record_verdicts (v : Verdict) (s : State) :
    (s.record v).verdicts = s.verdicts ++ [v] := rfl

@[simp] theorem State.reset_decIn : State.reset.decIn = none := rfl
@[simp] theorem State.reset_encIn : State.reset.encIn = none := rfl
@[simp] theorem State.reset_script : State.reset.script = [] := rfl
@[simp] theorem State.reset_verdicts : State.reset.verdicts = [] := rfl

/-- Placing the script a state already has changes nothing. -/
@[simp] theorem State.withScript_self (s : State) : s.withScript s.script = s := rfl

@[simp] theorem State.withScript_withScript (ls ls' : List Line) (s : State) :
    (s.withScript ls).withScript ls' = s.withScript ls' := rfl

/-- What an `EXPECT` line finds at each of the three conditions of its port. -/
@[simp] theorem judge_none {n : Nat} (v : BitVec n) : judge none v = .unsettled := rfl
@[simp] theorem judge_some {n : Nat} (v w : BitVec n) :
    judge (some w) v = if w = v then .holds else .fails := rfl

end Sys2Proof.Machine
end

