-- ==== Sys2Proof/Laws/Ports.lean ====
section
/-! SUPPORT. What the output ports show after each operation on the state, and what exec answers. -/

namespace Sys2Proof.Machine

@[simp] theorem State.driveDec_decOut (c : Code) (s : State) :
    (s.driveDec c).decOut = some (uncompress c) := rfl
@[simp] theorem State.driveDec_encOut (c : Code) (s : State) : (s.driveDec c).encOut = s.encOut := rfl
@[simp] theorem State.driveEnc_decOut (m : Magnitude) (s : State) : (s.driveEnc m).decOut = s.decOut := rfl
@[simp] theorem State.driveEnc_encOut (m : Magnitude) (s : State) :
    (s.driveEnc m).encOut = some (compress m) := rfl
@[simp] theorem State.withScript_decOut (ls : List Line) (s : State) : (s.withScript ls).decOut = s.decOut := rfl
@[simp] theorem State.withScript_encOut (ls : List Line) (s : State) : (s.withScript ls).encOut = s.encOut := rfl
@[simp] theorem State.record_decOut (v : Verdict) (s : State) : (s.record v).decOut = s.decOut := rfl
@[simp] theorem State.record_encOut (v : Verdict) (s : State) : (s.record v).encOut = s.encOut := rfl
@[simp] theorem State.reset_decOut : State.reset.decOut = none := rfl
@[simp] theorem State.reset_encOut : State.reset.encOut = none := rfl

/-- `dec_out` is settled exactly while `dec_in` is driven. -/
theorem State.decOut_isSome (s : State) : s.decOut.isSome = s.decIn.isSome := by
  cases h : s.decIn <;> simp [State.decOut, h]

/-- `enc_out` is settled exactly while `enc_in` is driven. -/
theorem State.encOut_isSome (s : State) : s.encOut.isSome = s.encIn.isSome := by
  cases h : s.encIn <;> simp [State.encOut, h]

theorem State.decOut_of_decIn {s : State} {c : Code} (h : s.decIn = some c) :
    s.decOut = some (uncompress c) := by simp [State.decOut, h]

theorem State.encOut_of_encIn {s : State} {m : Magnitude} (h : s.encIn = some m) :
    s.encOut = some (compress m) := by simp [State.encOut, h]

/-- What `UNCOMPRESS` answers, in every state. -/
@[simp] theorem exec_uncompress (c : Code) (s : State) : exec (.uncompress c) s = .next (s.driveDec c) := rfl

/-- What `COMPRESS` answers, in every state. -/
@[simp] theorem exec_compress (m : Magnitude) (s : State) : exec (.compress m) s = .next (s.driveEnc m) := rfl

/-- Everything an operation can do. -/
theorem exec_cases {i : Instr} {s t : State} (h : exec i s = .next t) :
    (∃ c, i = .uncompress c ∧ t = s.driveDec c) ∨ (∃ m, i = .compress m ∧ t = s.driveEnc m) := by
  cases i with
  | uncompress c => exact .inl ⟨c, rfl, by simpa using h.symm⟩
  | compress m => exact .inr ⟨m, rfl, by simpa using h.symm⟩

end Sys2Proof.Machine
end

