-- ==== Sys2Proof/Laws/Step.lean ====
section
/-! SUPPORT. What a step can do, said once. -/

namespace Sys2Proof.Machine

@[simp] theorem step_nil {s : State} (h : s.script = []) : step s = .next s := by
  simp [step, h]

theorem step_cons {s : State} {l : Line} {ls : List Line} (h : s.script = l :: ls) :
    step s = runLine l (s.withScript ls) := by
  simp [step, h]

/-- A line that drives a word runs the operation the word is. -/
theorem runDrive_ok {p : InPort} {w : BusWord} {i : Instr} (h : decode p w = .ok i) (s : State) :
    runDrive p w s = exec i s := by
  simp [runDrive, h]

/-- What a line that drives a word can do. -/
theorem runDrive_cases {p : InPort} {w : BusWord} {s t : State} (h : runDrive p w s = .next t) :
    ∃ i, decode p w = .ok i ∧ exec i s = .next t := by
  unfold runDrive at h
  split at h
  · rename_i i hi
    exact ⟨i, hi, h⟩
  · cases h

/-- What a chaining line can do. -/
theorem runEncDecOut_cases {s t : State} (h : runEncDecOut s = .next t) :
    ∃ c, s.decIn = some c ∧ t = s.driveEnc (uncompress c) := by
  unfold runEncDecOut at h
  cases hc : s.decIn with
  | none => simp [State.decOut, hc] at h
  | some c => exact ⟨c, rfl, by simpa [State.decOut, hc, eq_comm] using h⟩

/-- What a chaining line can do. -/
theorem runDecEncOut_cases {s t : State} (h : runDecEncOut s = .next t) :
    ∃ m, s.encIn = some m ∧ t = s.driveDec (compress m) := by
  unfold runDecEncOut at h
  cases hm : s.encIn with
  | none => simp [State.encOut, hm] at h
  | some m => exact ⟨m, rfl, by simpa [State.encOut, hm, eq_comm] using h⟩

/-- The operation a port's values are. -/
theorem InPort.instr_cases (p : InPort) (v : Nat) :
    (p = .dec ∧ p.instr v = .uncompress (BitVec.ofNat 8 v)) ∨
    (p = .enc ∧ p.instr v = .compress (BitVec.ofNat 16 v)) := by
  cases p
  · exact .inl ⟨rfl, rfl⟩
  · exact .inr ⟨rfl, rfl⟩

/-- Everything a step can do. -/
theorem step_cases {s t : State} (h : step s = .next t) :
    (s.script = [] ∧ t = s) ∨
    (∃ w ls c, s.script = .drive .dec w :: ls ∧ decode .dec w = .ok (.uncompress c) ∧
      t = (s.withScript ls).driveDec c) ∨
    (∃ w ls m, s.script = .drive .enc w :: ls ∧ decode .enc w = .ok (.compress m) ∧
      t = (s.withScript ls).driveEnc m) ∨
    (∃ ls c, s.script = .encDecOut :: ls ∧ s.decIn = some c ∧
      t = (s.withScript ls).driveEnc (uncompress c)) ∨
    (∃ ls m, s.script = .decEncOut :: ls ∧ s.encIn = some m ∧
      t = (s.withScript ls).driveDec (compress m)) ∨
    (∃ ls v, s.script = .expectDecOut v :: ls ∧ t = (s.withScript ls).record (judge s.decOut v)) ∨
    (∃ ls v, s.script = .expectEncOut v :: ls ∧ t = (s.withScript ls).record (judge s.encOut v)) := by
  cases hs : s.script with
  | nil => exact .inl ⟨rfl, by simpa [step, hs, eq_comm] using h⟩
  | cons l ls =>
    rw [step_cons hs] at h
    cases l with
    | drive p w =>
      obtain ⟨i, hi, ht⟩ := runDrive_cases h
      obtain ⟨_, v, _, rfl⟩ := decode_eq_ok.mp hi
      cases p with
      | dec => exact .inr (.inl ⟨w, ls, BitVec.ofNat 8 v, rfl, hi, by simpa [InPort.instr, eq_comm] using ht⟩)
      | enc => exact .inr (.inr (.inl ⟨w, ls, BitVec.ofNat 16 v, rfl, hi, by simpa [InPort.instr, eq_comm] using ht⟩))
    | encDecOut =>
      obtain ⟨c, hc, ht⟩ := runEncDecOut_cases h
      exact .inr (.inr (.inr (.inl ⟨ls, c, rfl, by simpa using hc, ht⟩)))
    | decEncOut =>
      obtain ⟨m, hm, ht⟩ := runDecEncOut_cases h
      exact .inr (.inr (.inr (.inr (.inl ⟨ls, m, rfl, by simpa using hm, ht⟩))))
    | expectDecOut v =>
      exact .inr (.inr (.inr (.inr (.inr (.inl ⟨ls, v, rfl, by simpa [runLine, eq_comm] using h⟩)))))
    | expectEncOut v =>
      exact .inr (.inr (.inr (.inr (.inr (.inr ⟨ls, v, rfl, by simpa [runLine, eq_comm] using h⟩)))))

/-- No step ends in a fault: there is none (rule R54). -/
theorem step_next_or_refused (s : State) : (∃ t, step s = .next t) ∨ ∃ r, step s = .refused r := by
  cases h : step s with
  | next t => exact .inl ⟨t, rfl⟩
  | fault f => cases f
  | refused r => exact .inr ⟨r, rfl⟩

/-- A run takes the first step and goes on from there. -/
theorem run_succ_of_next {s t : State} (h : step s = .next t) (n : Nat) :
    Host.Core.run Sys2Proof.core (n + 1) s = Host.Core.run Sys2Proof.core n t := by
  have h' : Host.Core.step Sys2Proof.core s = .next t := h
  simp only [Host.Core.run, h']

/-- What the first step of a run that goes on can be. -/
theorem run_succ_cases {n : Nat} {s u : State} (h : Host.Core.run Sys2Proof.core (n + 1) s = .next u) :
    ∃ t, step s = .next t ∧ Host.Core.run Sys2Proof.core n t = .next u := by
  rcases step_next_or_refused s with ⟨t, ht⟩ | ⟨r, hr⟩
  · exact ⟨t, ht, by rw [← run_succ_of_next ht]; exact h⟩
  · have hr' : Host.Core.step Sys2Proof.core s = .refused r := hr
    simp [Host.Core.run, hr'] at h

end Sys2Proof.Machine
end

