-- ==== Sys2Proof/Tests/Slice0.lean ====
section
/-! SUPPORT. Small tests. Expected values come from spec/95_test_vectors.md, or from words written out by hand from rules R7,
R29 and R30; each test names its source. Then, for each statement of Certificates/Slice0/Obligations.lean with hypotheses, a
theorem that shows values that meet them, at the ends of their ranges. -/

namespace Sys2Proof.Tests

open Sys2Proof.Machine

/-! ### Well-formedness refuses what is ill formed (rules R24, R34, R66) -/

/-- Seven wires on the eight-wire port. -/
theorem test_wf_refuses_narrow_word :
    BusWord.wf .dec [.zero, .zero, .zero, .zero, .zero, .zero, .zero] = false := by decide

/-- Eight wires on the sixteen-wire port. -/
theorem test_wf_refuses_code_on_encoder :
    Line.wf (.drive .enc [.zero, .zero, .zero, .zero, .zero, .zero, .zero, .zero]) = false := by decide

/-- An unknown bit. -/
theorem test_wf_refuses_x :
    Line.wf (.drive .dec [.x, .zero, .zero, .zero, .zero, .zero, .zero, .zero]) = false := by decide

/-- An undriven bit. -/
theorem test_wf_refuses_z :
    Line.wf (.drive .dec [.zero, .zero, .zero, .zero, .zero, .zero, .zero, .z]) = false := by decide

/-! ### Decoding, from words written out by hand -/

/-- 0x9A is 1001 1010, exponent 9 and fraction 0xA (rule R29; 95 section 1, S4). -/
theorem test_decode_uncompress :
    decode .dec [.zero, .one, .zero, .one, .one, .zero, .zero, .one] = .ok (.uncompress 0x9A) := by decide

/-- 0x3E80 is 0011 1110 1000 0000 (rule R35's own example). -/
theorem test_decode_compress :
    decode .enc [.zero, .zero, .zero, .zero, .zero, .zero, .zero, .one,
      .zero, .one, .one, .one, .one, .one, .zero, .zero] = .ok (.compress 0x3E80) := by decide

theorem test_decode_refuses_wide_word :
    decode .dec [.zero, .one, .zero, .one, .one, .zero, .zero, .one, .zero] = .error .wrongWidth := by decide

theorem test_decode_refuses_x :
    decode .dec [.zero, .one, .zero, .x, .one, .zero, .zero, .one] = .error .undefinedBit := by decide

theorem test_decode_fields : Code.exponent 0x9A = 9 ∧ Code.fraction 0x9A = 0xA := by decide

theorem test_table_words :
    decodeTableWord 8 0x9A = some (.uncompress 0x9A) ∧ decodeTableWord 16 0x3E80 = some (.compress 0x3E80) ∧
    decodeTableWord 7 0x80 = none ∧ decodeTableWord 8 0x100 = none := by decide

/-! ### The two operations, two theorems each (95 sections 1 to 3) -/

/-- A state with other values on both ports and a line to run. -/
def busy : State :=
  { decIn := some 0x00, encIn := some 0xFFFF, script := [.encDecOut], verdicts := [.holds] }

/-- S4, and the encoder's ports stay. -/
theorem test_uncompress_S4 :
    exec (.uncompress 0x9A) busy = .next { busy with decIn := some 0x9A } ∧
    State.decOut { busy with decIn := some 0x9A } = some 0x0340 ∧
    State.encOut { busy with decIn := some 0x9A } = some 0xFF := ⟨rfl, by decide, by decide⟩

/-- The ends of the four bands (95 section 2, corner vectors), and the corrected vector S6. -/
theorem test_uncompress_corners :
    [0x07, 0x08, 0x0F, 0x10, 0x17, 0x18, 0x21, 0x3E, 0x3F, 0x40, 0x4F, 0x50, 0xDF, 0xFF].map uncompress =
    [0x0000, 0x0001, 0x0001, 0x0002, 0x0002, 0x0003, 0x0004, 0x000F, 0x000F, 0x0010, 0x001F, 0x0020, 0x3E00,
      0xF800] := by decide

/-- S9, and the decoder's ports stay. -/
theorem test_compress_S9 :
    exec (.compress 0x3E80) busy = .next { busy with encIn := some 0x3E80 } ∧
    State.encOut { busy with encIn := some 0x3E80 } = some 0xDF ∧
    State.decOut { busy with encIn := some 0x3E80 } = some 0x0000 := ⟨rfl, by decide, by decide⟩

/-- Special cases, exact band, ties, carries and the top band (95 sections 3.1 and 3.2). -/
theorem test_compress_corners :
    [0x0000, 0x0001, 0x0002, 0x001F, 0x0020, 0x0021, 0x003F, 0x0041, 0x0084, 0x00FF, 0x3EFF, 0x3F00, 0x7FFF, 0xF3FF,
      0xF400, 0xFBFF, 0xFC00, 0xFFFF].map compress =
    [0x00, 0x08, 0x10, 0x4F, 0x50, 0x51, 0x60, 0x60, 0x71, 0x80, 0xDF, 0xE0, 0xF0, 0xFE, 0xFF, 0xFF, 0xFF, 0xFF] := by
  decide

/-- The narrowing of decision D11 (95 section 3.1, last line). -/
theorem test_wrap_top_band :
    compressWith .wrap 0xFC00 = 0x00 ∧ compressWith .wrap 0xFFFF = 0x00 ∧ compressWith .wrap 0xFBFF = 0xFF := by decide

/-! ### One step -/

/-- A bench that has driven `dec_in` only, with the given lines to run. -/
def bench (ls : List Line) : State := { decIn := some 0x9A, encIn := none, script := ls, verdicts := [] }

/-- Program P5, line 2's word by chaining: `ENC dec_out` after `DEC 0x9A` drives 0x0340. -/
theorem test_step_chain :
    step (bench [.encDecOut]) = .next { bench [] with encIn := some 0x0340 } := rfl

theorem test_step_chain_unsettled : step (bench [.decEncOut]) = .refused (.unsettledSource .enc) := rfl

theorem test_step_expect_holds :
    step (bench [.expectDecOut 0x0340]) = .next { bench [] with verdicts := [.holds] } := rfl

theorem test_step_expect_fails :
    step (bench [.expectDecOut 0x0341]) = .next { bench [] with verdicts := [.fails] } := rfl

theorem test_step_expect_unsettled :
    step (bench [.expectEncOut 0x9A]) = .next { bench [] with verdicts := [.unsettled] } := rfl

theorem test_step_after_reset :
    step (State.reset.withFetchWord 16 0x3E80) = .next { State.reset with encIn := some 0x3E80 } := rfl

theorem test_step_idle : step (bench []) = .next (bench []) := rfl

/-! ### The script's text (rule R35) -/

/-- `ENC 0x3E80` (rule R35's example), and its decimal form `ENC 16000` (95 section 1, S9). -/
theorem test_read_enc :
    readLine ['E', 'N', 'C', ' ', '0', 'x', '3', 'E', '8', '0'] = some (encLine 0x3E80) ∧
    readLine ['E', 'N', 'C', ' ', '1', '6', '0', '0', '0'] = some (encLine 0x3E80) := by decide

/-- `EXPECT dec_out = 0x3E00` (program P1), and `DEC 256`, which does not fit the port. -/
theorem test_read_expect_and_refusal :
    readLine ['E', 'X', 'P', 'E', 'C', 'T', ' ', 'd', 'e', 'c', '_', 'o', 'u', 't', ' ', '=', ' ',
      '0', 'x', '3', 'E', '0', '0'] = some (.expectDecOut 0x3E00) ∧
    readLine ['D', 'E', 'C', ' ', '2', '5', '6'] = none := by decide

/-- Two lines of program P1. -/
theorem test_load :
    State.load ['D', 'E', 'C', ' ', 'e', 'n', 'c', '_', 'o', 'u', 't', '\n',
      'E', 'N', 'C', ' ', 'd', 'e', 'c', '_', 'o', 'u', 't'] State.reset =
    some { State.reset with script := [.decEncOut, .encDecOut] } := by decide

/-! ### Values that meet the hypotheses of the statements -/

theorem test_witness_UncompressZeroBand : (0x00 : Code).toNat < 8 ∧ (0x07 : Code).toNat < 8 := by decide

theorem test_witness_UncompressExponentZero :
    (0x08 ≤ (0x08 : Code).toNat ∧ (0x08 : Code).toNat ≤ 0x0F) ∧ (0x08 ≤ (0x0F : Code).toNat ∧ (0x0F : Code).toNat ≤ 0x0F) ∧
    Code.exponent 0x00 = 0 ∧ Code.exponent 0x0F = 0 := by decide

/-- Exponents 1 and 3, and a second code of exponent 1. -/
theorem test_witness_UncompressRightShiftBand :
    (1 ≤ Code.exponent 0x10 ∧ Code.exponent 0x10 ≤ 3) ∧ (1 ≤ Code.exponent 0x3F ∧ Code.exponent 0x3F ≤ 3) ∧
    Code.exponent 0x17 = Code.exponent 0x10 := by decide

/-- Exponents 4 and 15, and the next code of exponent 4. -/
theorem test_witness_UncompressLeftShiftBand :
    4 ≤ Code.exponent 0x40 ∧ 4 ≤ Code.exponent 0xFF ∧
    (0x41 : Code).toNat = (0x40 : Code).toNat + 1 ∧ Code.exponent 0x41 = Code.exponent 0x40 := by decide

theorem test_witness_UncompressResult :
    8 ≤ (0xFF : Code).toNat ∧ 4 ≤ Code.exponent 0xFF ∧ 8 ≤ (0x08 : Code).toNat ∧ Code.exponent 0x08 < 4 ∧
    (0x07 : Code).toNat < 8 := by decide

/-- Codes in order, and in rising exponents. -/
theorem test_witness_DecoderRangeMonotoneDistinct :
    (0x0F : Code).toNat ≤ (0x10 : Code).toNat ∧ Code.exponent 0x0F < Code.exponent 0x10 := by decide

/-- Magnitudes 2 and 31 in the exact band; 32, 63 (carry) and 0xFFFF (carry and clamp) in the rounding band. -/
theorem test_witness_CompressResult :
    (2 ≤ (2 : Magnitude).toNat ∧ 2 ^ 1 ≤ (2 : Magnitude).toNat ∧ (2 : Magnitude).toNat < 2 ^ (1 + 1) ∧ 1 < 5) ∧
    (2 ≤ (31 : Magnitude).toNat ∧ 2 ^ 4 ≤ (31 : Magnitude).toNat ∧ (31 : Magnitude).toNat < 2 ^ (4 + 1) ∧ 4 < 5) ∧
    (2 ^ 5 ≤ (32 : Magnitude).toNat ∧ (32 : Magnitude).toNat < 2 ^ (5 + 1) ∧ 5 ≤ 5 ∧
      32 = (32 : Magnitude).toNat / 2 ^ (5 - 5) ∧ 32 = (if 32 % 2 = 1 then 32 + 2 else 32)) ∧
    (2 ^ 15 ≤ (0xFFFF : Magnitude).toNat ∧ (0xFFFF : Magnitude).toNat < 2 ^ (15 + 1) ∧ 5 ≤ 15 ∧
      63 = (0xFFFF : Magnitude).toNat / 2 ^ (15 - 5) ∧ 65 = (if 63 % 2 = 1 then 63 + 2 else 63)) := by decide

theorem test_witness_CompressIsRoundedDivision :
    (5 ≤ 5 ∧ 2 ^ 5 ≤ (32 : Magnitude).toNat ∧ (32 : Magnitude).toNat < 2 ^ (5 + 1)) ∧
    (5 ≤ 15 ∧ 2 ^ 15 ≤ (0xFFFF : Magnitude).toNat ∧ (0xFFFF : Magnitude).toNat < 2 ^ (15 + 1)) := by decide

theorem test_witness_CompressSpecialCases : uncompress 0x08 = 1 ∧ uncompress 0x0F = 1 := by decide

theorem test_witness_ExponentIsHighestSetBit :
    2 ≤ (2 : Magnitude).toNat ∧ 2 ≤ (0xFFFF : Magnitude).toNat ∧ (2 : Magnitude).toNat >>> 1 = 1 := by decide

theorem test_witness_CompressExactBand :
    (2 ≤ (2 : Magnitude).toNat ∧ (2 : Magnitude).toNat ≤ 31) ∧ (2 ≤ (31 : Magnitude).toNat ∧ (31 : Magnitude).toNat ≤ 31) ∧
    (0 : Magnitude).toNat ≤ 31 := by decide

/-- The ends of the rounding band; a window that does not carry; and two magnitudes that differ only below the guard bit. -/
theorem test_witness_CompressRoundingBand :
    32 ≤ (32 : Magnitude).toNat ∧ 32 ≤ (0xFFFF : Magnitude).toNat ∧
    carrySet (roundWindow (window (0xFBFF : Magnitude).toNat (msb (0xFBFF : Magnitude).toNat))) = false ∧
    (32 ≤ (64 : Magnitude).toNat ∧ 32 ≤ (65 : Magnitude).toNat ∧ msb (64 : Magnitude).toNat = msb (65 : Magnitude).toNat ∧
      (64 : Magnitude).toNat / 2 ^ (msb (64 : Magnitude).toNat - 5) =
        (65 : Magnitude).toNat / 2 ^ (msb (64 : Magnitude).toNat - 5)) := by decide

/-- The first and the last carrying magnitude below exponent 15 (rule R47). -/
theorem test_witness_CompressCarry :
    (32 ≤ (0x003F : Magnitude).toNat ∧ msb (0x003F : Magnitude).toNat ≤ 14 ∧
      window (0x003F : Magnitude).toNat (msb (0x003F : Magnitude).toNat) = 63) ∧
    (32 ≤ (0x7FFF : Magnitude).toNat ∧ msb (0x7FFF : Magnitude).toNat ≤ 14 ∧
      window (0x7FFF : Magnitude).toNat (msb (0x7FFF : Magnitude).toNat) = 63) ∧ 5 ≤ 15 := by decide

/-- The ends of the two ranges, and a code within the bound of the whole band. -/
theorem test_witness_CompressTopBand :
    0xFC00 ≤ (0xFC00 : Magnitude).toNat ∧ 0xFC00 ≤ (0xFFFF : Magnitude).toNat ∧
    (0xF400 ≤ (0xF400 : Magnitude).toNat ∧ (0xF400 : Magnitude).toNat ≤ 0xFBFF) ∧
    (0xF400 ≤ (0xFBFF : Magnitude).toNat ∧ (0xFBFF : Magnitude).toNat ≤ 0xFBFF) ∧
    ∀ m : Magnitude, 0xFC00 ≤ m.toNat →
      (((uncompress 0xFF).toNat : Int) - m.toNat).natAbs ≤ 2 ^ (Code.exponent 0xFF - 4) := by
  refine ⟨by decide, by decide, by decide, by decide, fun m h => ?_⟩
  have hv : (uncompress 0xFF).toNat = 0xF800 := by decide
  have he : Code.exponent 0xFF = 15 := by decide
  have hm := m.isLt
  rw [hv, he]
  omega

/-- The first tie of the rounding band, and the last below the top band (95 sections 3.1 and 3.2). -/
theorem test_witness_TieBreakingPolicy :
    (31 : Magnitude).toNat ≤ 31 ∧ uncompress 0x4F = 31 ∧
    (32 ≤ (33 : Magnitude).toNat ∧ (33 : Magnitude).toNat < 0xFC00 ∧
      (33 : Magnitude).toNat % 2 ^ (msb (33 : Magnitude).toNat - 4) = 2 ^ (msb (33 : Magnitude).toNat - 5)) ∧
    (32 ≤ (0xF400 : Magnitude).toNat ∧ (0xF400 : Magnitude).toNat < 0xFC00 ∧
      (0xF400 : Magnitude).toNat % 2 ^ (msb (0xF400 : Magnitude).toNat - 4) =
        2 ^ (msb (0xF400 : Magnitude).toNat - 5)) := by decide

theorem test_witness_NearInverse :
    (31 : Magnitude).toNat ≤ 31 ∧ (32 ≤ (32 : Magnitude).toNat ∧ (32 : Magnitude).toNat ≤ 0xFBFF) ∧
    (32 ≤ (0xFBFF : Magnitude).toNat ∧ (0xFBFF : Magnitude).toNat ≤ 0xFBFF) ∧ 0xFC00 ≤ (0xFC00 : Magnitude).toNat := by
  decide

theorem test_witness_CompressMonotone :
    (0 : Magnitude).toNat < (1 : Magnitude).toNat ∧ (0xFBFF : Magnitude).toNat < (0xFC00 : Magnitude).toNat := by decide

theorem test_witness_InternalWidths :
    (2 ≤ (31 : Magnitude).toNat ∧ (31 : Magnitude).toNat ≤ 31) ∧ 32 ≤ (32 : Magnitude).toNat ∧
    compressRaw (0xFC00 : Magnitude).toNat = 0x100 := by decide

/-- The ends of the table: a code of one magnitude, the first of the rounding band, and the last code. -/
theorem test_witness_CompressIsIntervalTable :
    isCanonical 0x00 = true ∧ isCanonical 0x50 = true ∧ isCanonical 0xFF = true ∧
    (intervalLo 0x60, intervalHi 0x60) = (0x003F, 0x0041) ∧ (intervalLo 0xFF, intervalHi 0xFF) = (0xF400, 0xFFFF) ∧
    (0x50 : Code).toNat < (0xFF : Code).toNat := by decide

theorem test_witness_CanonicalCodes :
    isCanonical 0x01 = false ∧ isCanonical 0x3F = false ∧ isCanonical 0x3E = true ∧
    (0x3E : Code).toNat < (0x3F : Code).toNat := by decide

theorem test_witness_TopCarryOnlyInTopBand :
    (0xFBFF : Magnitude).toNat < 0xFC00 ∧ 0xFC00 ≤ (0xFC00 : Magnitude).toNat := by decide

/-- For EncodeOfDecode, WireCarriesItsBit and EveryDefinedWordIsAnInput: a word of each port. -/
theorem test_witness_decoded_words :
    decode .dec (BusWord.ofNat 8 0x9A) = .ok (.uncompress 0x9A) ∧
    decode .enc (BusWord.ofNat 16 0x3E80) = .ok (.compress 0x3E80) ∧
    BusWord.wf .dec (BusWord.ofNat 8 0x9A) = true ∧ BusWord.wf .enc (BusWord.ofNat 16 0x3E80) = true := by decide

theorem test_witness_NonInputsAreRefused :
    ((bench [.drive .dec [.one]]).script = .drive .dec [.one] :: [] ∧ [Level.one].length ≠ InPort.width .dec) ∧
    ([Level.x, .zero, .zero, .zero, .zero, .zero, .zero, .z].length = InPort.width .dec ∧
      Level.x ∈ [Level.x, .zero, .zero, .zero, .zero, .zero, .zero, .z]) := by decide

theorem test_witness_TableWordsRun : ((7 : Nat) ≠ 8 ∧ (7 : Nat) ≠ 16) ∧ 2 ^ 8 ≤ 256 ∧ 2 ^ 16 ≤ 65536 := by decide

/-- For the frames, OutputsDependOnOwnInput and EvaluationsIdempotentAndCommute: both operations answer a next state, from two
states that differ. -/
theorem test_witness_operations_answer :
    exec (.uncompress 0x9A) busy = .next { busy with decIn := some 0x9A } ∧
    exec (.uncompress 0x9A) State.reset = .next { State.reset with decIn := some 0x9A } ∧
    exec (.compress 0x21) busy = .next { busy with encIn := some 0x21 } ∧
    exec (.compress 0x21) State.reset = .next { State.reset with encIn := some 0x21 } ∧
    (State.reset.encIn = (bench []).encIn ∧ State.reset ≠ bench []) ∧
    (State.decIn busy = State.decIn { busy with encIn := some 0x21 } ∧ busy ≠ { busy with encIn := some 0x21 }) :=
  ⟨rfl, rfl, rfl, rfl, by decide, by decide⟩

/-- Two instances, and a schedule that drives both units of the one and one of the other. -/
theorem test_witness_ScheduleIndependence :
    (∀ e ∈ ([(0, .uncompress 0x9A), (1, .compress 0x21), (0, .compress 0xFFFF)] : List Transaction),
      e.1 < ([State.reset, busy] : System).length) ∧
    ([State.reset, busy] : System)[1]? = some busy := by decide

theorem test_witness_InstancesAreIsolated :
    System.transact [State.reset, busy] 0 (.uncompress 0x9A) = .next [{ State.reset with decIn := some 0x9A }, busy] ∧
    1 < ([State.reset, busy] : System).length ∧ ([State.reset, busy] : System).length ≤ 2 := ⟨rfl, by decide, by decide⟩

theorem test_witness_StepRunsDecodedWord :
    (bench [encLine 0x3E80]).script = .drive .enc (BusWord.ofNat 16 0x3E80) :: [] ∧
    decode .enc (BusWord.ofNat 16 0x3E80) = .ok (.compress 0x3E80) := by decide

theorem test_witness_StepRunsChainedLine :
    ((bench [.encDecOut]).script = .encDecOut :: [] ∧ (bench [.encDecOut]).decIn = some 0x9A) ∧
    State.script { busy with script := [.decEncOut] } = .decEncOut :: [] ∧
    State.encIn { busy with script := [.decEncOut] } = some 0xFFFF := by decide

theorem test_witness_ChainFromUndrivenRefused :
    State.script { State.reset with script := [.encDecOut] } = .encDecOut :: [] ∧ State.reset.decIn = none ∧
    (bench [.decEncOut]).script = .decEncOut :: [] ∧ (bench [.decEncOut]).encIn = none := by decide

theorem test_witness_ExpectLeavesBlockAlone :
    (bench [.expectDecOut 0x0340]).script = .expectDecOut 0x0340 :: [] ∧
    (bench [.expectEncOut 0x9A]).script = .expectEncOut 0x9A :: [] := by decide

/-- A step that changes each input, and one that changes neither. -/
theorem test_witness_InputKeepsItsLastValue :
    step (bench [decLine 0x08]) = .next { bench [] with decIn := some 0x08 } ∧
    step (bench [.encDecOut]) = .next { bench [] with encIn := some 0x0340 } ∧
    step (bench [.expectDecOut 0]) = .next { bench [] with verdicts := [.fails] } := ⟨rfl, rfl, rfl⟩

theorem test_witness_StepTakesOneLine :
    (bench []).script = [] ∧ (bench [decLine 0x08, .encDecOut]).script = decLine 0x08 :: [.encDecOut] ∧
    step (bench [decLine 0x08, .encDecOut]) = .next { bench [.encDecOut] with decIn := some 0x08 } := ⟨rfl, rfl, rfl⟩

/-- A safe script with a line of every kind, whose first step is taken; and a script that is not safe. -/
theorem test_witness_SafeStates :
    (bench [.encDecOut, .decEncOut, encLine 0x21, .expectEncOut 0x51, .expectDecOut 0]).safe = true ∧
    step (bench [.encDecOut, .decEncOut]) = .next { bench [.decEncOut] with encIn := some 0x0340 } ∧
    (bench [.decEncOut]).safe = false := ⟨by decide, rfl, by decide⟩

theorem test_witness_ResetIsSafe :
    ∀ l ∈ [encLine 0x21, .expectEncOut 0x51], l.wf = true ∧ l ≠ .encDecOut ∧ l ≠ .decEncOut := by decide

theorem test_witness_RoundTripThroughPorts :
    isCanonical 0x28 = true ∧ (bench [decLine 0x28, .encDecOut]).script = [decLine 0x28, .encDecOut] ∧
    (bench [decLine 0x2B, .encDecOut, .decEncOut]).script = [decLine 0x2B, .encDecOut, .decEncOut] := by decide

/-- A conforming pair of units on a bench that holds 0x9A and 0xFFFF for slots of three ticks. -/
theorem test_witness_SettledSampleIsModelOutput :
    let s : State := { busy with decIn := some 0x9A }
    let p : Params := { tDec := 2, tEnc := 1, nInst := 1 }
    DecoderConforms p.tDec (slotWave 3 fun _ => s.decIn) (fun _ => uncompress 0x9A) ∧
    EncoderConforms p.tEnc (slotWave 3 fun _ => s.encIn) (fun _ => compress 0xFFFF) ∧
    p.tDec < 3 ∧ p.tEnc < 3 ∧ s.decIn ≠ none ∧ s.encIn ≠ none := by
  refine ⟨fun t c h => ?_, fun t m h => ?_, by decide, by decide, by decide, by decide⟩
  · have := h.2 0 (Nat.zero_le _)
    rw [slotWave, Option.some.injEq] at this
    rw [this]
  · have := h.2 0 (Nat.zero_le _)
    simp only [slotWave, busy, Option.some.injEq] at this
    rw [this]

/-- An undriven input, and one that has changed within the delay. -/
theorem test_witness_UnsettledOutputIsAnyValue :
    (∀ c : Code, ¬ HeldFor (fun _ => none) 2 5 c) ∧ (∀ m : Magnitude, ¬ HeldFor (fun _ => none) 2 5 m) ∧
    ∀ c : Code, ¬ HeldFor (fun t => if t < 5 then some (0x10 : Code) else some 0x20) 2 5 c := by
  refine ⟨fun c h => ?_, fun m h => ?_, fun c h => ?_⟩
  · cases h.2 0 (by decide)
  · cases h.2 0 (by decide)
  · have h0 := h.2 0 (by decide)
    have h1 := h.2 1 (by decide)
    simp at h0 h1
    rw [← h1] at h0
    exact absurd h0 (by decide)

theorem test_witness_ScriptTextRoundTrip :
    Line.wf (encLine 0x3E80) = true ∧ Line.wf .decEncOut = true ∧ Line.wf (.expectEncOut 0xDF) = true := by decide

/-- `DEC 0xFF` is read as a line. -/
theorem test_witness_ReadLinesAreWellFormed :
    readLine ['D', 'E', 'C', ' ', '0', 'x', 'F', 'F'] = some (decLine 0xFF) := by decide

end Sys2Proof.Tests
end

section
/-! SUPPORT. The wires of a word: what each carries, and the words an operation is decoded from. -/

namespace Sys2Proof

/-- A wire's level as the arithmetic test that the statements about wires are written in. -/
theorem Level.ofBool_mod_two_beq (a : Nat) :
    Level.ofBool (a % 2 == 1) = if a % 2 = 1 then Level.one else Level.zero := by
  rcases Nat.mod_two_eq_zero_or_one a with h | h <;> simp [h, Level.ofBool]

/-- Each wire of the word that carries `v` has the bit of `v` of its own weight (rule R7). -/
theorem BusWord.getElem?_ofNat {n k : Nat} (hk : k < n) (v : Nat) :
    (BusWord.ofNat n v)[k]? = some (if v / 2 ^ k % 2 = 1 then Level.one else Level.zero) := by
  induction n generalizing k v with
  | zero => cases hk
  | succ n ih =>
    cases k with
    | zero => simp [BusWord.ofNat, Level.ofBool_mod_two_beq]
    | succ k =>
      have hshift : v / 2 / 2 ^ k = v / 2 ^ (k + 1) := by
        rw [Nat.div_div_eq_div_mul, Nat.pow_succ']
      rw [BusWord.ofNat, List.getElem?_cons_succ, ih (Nat.lt_of_succ_lt_succ hk), hshift]

/-- Encoding a value that fits port `p` puts that value on the wires of `p`. -/
theorem encode_instr {p : InPort} {v : Nat} (h : v < 2 ^ p.width) :
    encode (p.instr v) = (p, BusWord.ofNat p.width v) := by
  cases p with
  | dec => rw [InPort.instr, encode, BitVec.toNat_ofNat, Nat.mod_eq_of_lt (show v < 2 ^ 8 from h), InPort.width]
  | enc => rw [InPort.instr, encode, BitVec.toNat_ofNat, Nat.mod_eq_of_lt (show v < 2 ^ 16 from h), InPort.width]

/-- A word the decoder accepts is the encoding of the operation it is read as (rules R31, R33). -/
theorem encode_of_decode_eq_ok {p : InPort} {w : BusWord} {i : Instr} (h : decode p w = .ok i) :
    encode i = (p, w) := by
  obtain ⟨hlen, v, hv, rfl⟩ := decode_eq_ok.mp h
  have hlt : v < 2 ^ p.width := hlen ▸ BusWord.value?_lt hv
  rw [encode_instr hlt, ← hlen, BusWord.ofNat_value? hv]

/-- Settles O24: an accepted word is the word of its operand, whose wires carry the operand's bits. -/
theorem wireCarriesItsBit : Obligations.WireCarriesItsBit := by
  refine ⟨fun w c h k hk => ?_, fun w m h k hk => ?_⟩
  · have hw : BusWord.ofNat 8 c.toNat = w := congrArg Prod.snd (encode_of_decode_eq_ok h)
    rw [← hw, BusWord.getElem?_ofNat hk]
  · have hw : BusWord.ofNat 16 m.toNat = w := congrArg Prod.snd (encode_of_decode_eq_ok h)
    rw [← hw, BusWord.getElem?_ofNat hk]

end Sys2Proof
end

section
/-! SUPPORT. The frame of each operation, and what each output port depends on. -/

namespace Sys2Proof.Machine

/-- The one next state of `UNCOMPRESS`: its operand on `dec_in`, and all else as it was. -/
theorem exec_uncompress_eq_next {c : Code} {s t : State} :
    exec (.uncompress c) s = .next t ↔ t = s.driveDec c := by
  rw [exec_uncompress, Host.Outcome.next.injEq, eq_comm]

/-- The one next state of `COMPRESS`: its operand on `enc_in`, and all else as it was. -/
theorem exec_compress_eq_next {m : Magnitude} {s t : State} :
    exec (.compress m) s = .next t ↔ t = s.driveEnc m := by
  rw [exec_compress, Host.Outcome.next.injEq, eq_comm]

/-- `dec_out` depends only on `dec_in` (rule R18). -/
theorem State.decOut_congr {s s' : State} (h : s.decIn = s'.decIn) : s.decOut = s'.decOut :=
  congrArg (Option.map uncompress) h

/-- `enc_out` depends only on `enc_in` (rule R18). -/
theorem State.encOut_congr {s s' : State} (h : s.encIn = s'.encIn) : s.encOut = s'.encOut :=
  congrArg (Option.map compress) h

/-- Settles O31: the next state is `State.driveDec`, which leaves the encoder's ports and the test bench as they were. -/
theorem uncompressFrame : Obligations.UncompressFrame := by
  intro c s t h
  obtain rfl := exec_uncompress_eq_next.mp h
  exact ⟨s.driveDec_encIn c, s.driveDec_encOut c, s.driveDec_script c, s.driveDec_verdicts c⟩

/-- Settles O32: the next state is `State.driveEnc`, which leaves the decoder's ports and the test bench as they were. -/
theorem compressFrame : Obligations.CompressFrame := by
  intro m s t h
  obtain rfl := exec_compress_eq_next.mp h
  exact ⟨s.driveEnc_decIn m, s.driveEnc_decOut m, s.driveEnc_script m, s.driveEnc_verdicts m⟩

/-- Settles O33: each output is a function of its own input, and an operation puts its operand on that input whatever the
state it starts from. -/
theorem outputsDependOnOwnInput : Obligations.OutputsDependOnOwnInput := by
  refine ⟨fun s s' => State.decOut_congr, fun s s' => State.encOut_congr,
    fun c s s' t t' h h' => State.decOut_congr ?_, fun m s s' t t' h h' => State.encOut_congr ?_⟩
  · rw [exec_uncompress_eq_next.mp h, exec_uncompress_eq_next.mp h', State.driveDec_decIn, State.driveDec_decIn]
  · rw [exec_compress_eq_next.mp h, exec_compress_eq_next.mp h', State.driveEnc_encIn, State.driveEnc_encIn]

end Sys2Proof.Machine
end

section
/-! SUPPORT. Evaluation again and evaluation in either order, at one instance and along a schedule over the instances of a
system. -/

namespace Sys2Proof.Machine

@[simp] theorem State.driveDec_driveDec (c c' : Code) (s : State) : (s.driveDec c).driveDec c' = s.driveDec c' := rfl

@[simp] theorem State.driveEnc_driveEnc (m m' : Magnitude) (s : State) :
    (s.driveEnc m).driveEnc m' = s.driveEnc m' := rfl

/-- The units share no port, so the order in which their inputs are driven does not matter (rule R70). -/
theorem State.driveEnc_driveDec (c : Code) (m : Magnitude) (s : State) :
    (s.driveDec c).driveEnc m = (s.driveEnc m).driveDec c := rfl

/-- Evaluating an operation again changes nothing (rule R24). -/
theorem exec_idempotent {i : Instr} {s t : State} (h : exec i s = .next t) : exec i t = .next t := by
  obtain ⟨c, rfl, rfl⟩ | ⟨m, rfl, rfl⟩ := exec_cases h
  · rw [exec_uncompress, State.driveDec_driveDec]
  · rw [exec_compress, State.driveEnc_driveEnc]

/-- Every operation answers a next state (rule R54). -/
theorem exec_answers (i : Instr) (s : State) : ∃ t, exec i s = .next t := by
  cases i with
  | uncompress c => exact ⟨_, exec_uncompress c s⟩
  | compress m => exact ⟨_, exec_compress m s⟩

/-- Settles O34: an operation drives its own port with its operand, which a second run does again, and the two operations
drive different ports. -/
theorem evaluationsIdempotentAndCommute : Obligations.EvaluationsIdempotentAndCommute := by
  refine ⟨fun i s t => exec_idempotent, fun c m s => ?_⟩
  refine ⟨s.driveDec c, s.driveEnc m, (s.driveDec c).driveEnc m, exec_uncompress c s, exec_compress m _,
    exec_compress m s, ?_, ?_, State.driveEnc_encOut m _⟩
  · rw [exec_uncompress, State.driveEnc_driveDec]
  · rw [State.driveEnc_decOut, State.driveDec_decOut]

/-- An evaluation at an instance the system has replaces that instance's state by the one the operation answers. -/
theorem System.transact_of_exec {sys : System} {k : Nat} {i : Instr} {s t : State} (hs : sys[k]? = some s)
    (ht : exec i s = .next t) : sys.transact k i = .next (sys.set k t) := by
  simp [System.transact, hs, ht]

/-- A schedule whose first evaluation runs goes on from the system that evaluation leaves. -/
theorem System.run_cons {sys sys' : System} {k : Nat} {i : Instr} (h : sys.transact k i = .next sys')
    (rest : List Transaction) : sys.run ((k, i) :: rest) = sys'.run rest := by
  simp [System.run, h]

/-- What a schedule makes of instance `k` in state `s`: each input port carries its own last word in the schedule, and all
else is as it was. -/
def State.afterSchedule (k : Nat) (sched : List Transaction) (s : State) : State :=
  { s with decIn := lastDecIn k sched s.decIn, encIn := lastEncIn k sched s.encIn }

@[simp] theorem State.afterSchedule_nil (k : Nat) (s : State) : s.afterSchedule k [] = s := rfl

/-- An evaluation at the instance itself comes before the rest of the schedule. -/
theorem State.afterSchedule_cons_same {k : Nat} {i : Instr} {s t : State} (h : exec i s = .next t)
    (rest : List Transaction) : s.afterSchedule k ((k, i) :: rest) = t.afterSchedule k rest := by
  obtain ⟨c, rfl, rfl⟩ | ⟨m, rfl, rfl⟩ := exec_cases h
  · simp [State.afterSchedule, lastDecIn, lastEncIn, State.driveDec]
  · simp [State.afterSchedule, lastDecIn, lastEncIn, State.driveEnc]

/-- An evaluation at another instance does not touch this one (rule R62). -/
theorem State.afterSchedule_cons_other {j k : Nat} (hjk : j ≠ k) (i : Instr) (rest : List Transaction) (s : State) :
    s.afterSchedule k ((j, i) :: rest) = s.afterSchedule k rest := by
  cases i with
  | uncompress c => simp [State.afterSchedule, lastDecIn, lastEncIn, hjk]
  | compress m => simp [State.afterSchedule, lastDecIn, lastEncIn, hjk]

/-- One evaluation and then the rest of a schedule, instance by instance. -/
theorem System.mapIdx_afterSchedule_set {sys : System} {k : Nat} {i : Instr} {s t : State} (hs : sys[k]? = some s)
    (ht : exec i s = .next t) (rest : List Transaction) :
    (sys.set k t).mapIdx (fun j => State.afterSchedule j rest) =
      sys.mapIdx (fun j => State.afterSchedule j ((k, i) :: rest)) := by
  refine List.ext_getElem? fun j => ?_
  rw [List.getElem?_mapIdx, List.getElem?_mapIdx]
  by_cases hkj : k = j
  · subst hkj
    have hk : k < sys.length := (List.getElem?_eq_some_iff.mp hs).1
    rw [List.getElem?_set_self hk, hs, Option.map_some, Option.map_some, State.afterSchedule_cons_same ht]
  · rw [List.getElem?_set_ne hkj]
    exact congrArg (Option.map · _) (funext fun s => (State.afterSchedule_cons_other hkj i rest s).symm)

/-- A schedule at instances the system has runs to its end, and each instance ends as its own part of the schedule says
(rule R26). -/
theorem System.run_eq_mapIdx (sys : System) (sched : List Transaction) (h : ∀ e ∈ sched, e.1 < sys.length) :
    sys.run sched = .next (sys.mapIdx fun k => State.afterSchedule k sched) := by
  induction sched generalizing sys with
  | nil => simp [System.run, List.mapIdx_eq_zipIdx_map]
  | cons e rest ih =>
    obtain ⟨k, i⟩ := e
    obtain ⟨hk, hrest⟩ := List.forall_mem_cons.mp h
    have hs : sys[k]? = some sys[k] := List.getElem?_eq_getElem hk
    obtain ⟨t, ht⟩ := exec_answers i sys[k]
    rw [System.run_cons (System.transact_of_exec hs ht), ih (sys.set k t) (by simpa using hrest),
      System.mapIdx_afterSchedule_set hs ht]

/-- Settles O35: the schedule ends in the system whose instances are `State.afterSchedule`, and there each output is its
function of the instance's own last input. -/
theorem scheduleIndependence : Obligations.ScheduleIndependence := by
  intro sys sched h
  refine ⟨_, System.run_eq_mapIdx sys sched h, List.length_mapIdx, fun k s hs => ?_⟩
  exact ⟨s.afterSchedule k sched, by rw [List.getElem?_mapIdx, hs, Option.map_some], rfl, rfl, rfl, rfl⟩

end Sys2Proof.Machine
end

section
/-! SUPPORT. The decoder and the encoder of words are inverse to each other, and the words of the opcode table's rows.
-/

namespace Sys2Proof

open Sys2Proof.Machine

/-- A word as wide as port `p` that carries `v` is read as the operation that `v`'s low bits are on `p`. -/
theorem decode_ofNat (p : InPort) (v : Nat) :
    decode p (BusWord.ofNat p.width v) = .ok (p.instr (v % 2 ^ p.width)) :=
  decode_eq_ok.mpr ⟨BusWord.length_ofNat _ _, _, BusWord.value?_ofNat _ _, rfl⟩

/-- The decoder reads an operation's encoding as that operation (rules R31, R33). -/
@[simp] theorem decode_encode (i : Instr) : decode (encode i).1 (encode i).2 = .ok i := by
  cases i with
  | uncompress c =>
    calc decode .dec (BusWord.ofNat 8 c.toNat)
      _ = .ok (.uncompress (BitVec.ofNat 8 (c.toNat % 2 ^ 8))) := decode_ofNat .dec c.toNat
      _ = .ok (.uncompress c) := by rw [Nat.mod_eq_of_lt c.isLt, BitVec.ofNat_toNat, BitVec.setWidth_eq]
  | compress m =>
    calc decode .enc (BusWord.ofNat 16 m.toNat)
      _ = .ok (.compress (BitVec.ofNat 16 (m.toNat % 2 ^ 16))) := decode_ofNat .enc m.toNat
      _ = .ok (.compress m) := by rw [Nat.mod_eq_of_lt m.isLt, BitVec.ofNat_toNat, BitVec.setWidth_eq]

theorem decode_of_eq_encode {p : InPort} {w : BusWord} {i : Instr} (h : (p, w) = encode i) : decode p w = .ok i := by
  have := decode_encode i
  rwa [← h] at this

/-- Settles O22: the word of an operand has the operand for its value. -/
theorem decodeOfEncode : Obligations.DecodeOfEncode := decode_encode

/-- Settles O23: an accepted word is the word of its own value. -/
theorem encodeOfDecode : Obligations.EncodeOfDecode := fun _ _ _ h => encode_of_decode_eq_ok h

/-- A well-formed word is read as an operation of its port (rules R31, R33). -/
theorem exists_decode_of_wf {p : InPort} {w : BusWord} (h : BusWord.wf p w = true) :
    ∃ v, decode p w = .ok (p.instr v) := by
  obtain ⟨i, hi⟩ := (decode_isOk p w).mpr h
  obtain ⟨_, v, _, rfl⟩ := decode_eq_ok.mp hi
  exact ⟨v, hi⟩

/-- Settles O26: a well-formed word is read as an operation of its port, which drives the port and so settles its
output; and the encoding of an operand is such a word. -/
theorem everyDefinedWordIsAnInput : Obligations.EveryDefinedWordIsAnInput := by
  refine ⟨fun w h => ?_, fun w h => ?_, fun c => ?_, fun m => ?_⟩
  · obtain ⟨v, hv⟩ := exists_decode_of_wf h
    exact ⟨_, hv, fun s => ⟨_, _, exec_uncompress _ s, State.driveDec_decOut _ s⟩⟩
  · obtain ⟨v, hv⟩ := exists_decode_of_wf h
    exact ⟨_, hv, fun s => ⟨_, _, exec_compress _ s, State.driveEnc_encOut _ s⟩⟩
  · exact ⟨_, Laws.EncodesInput.uncompress c, decode_encode (.uncompress c)⟩
  · exact ⟨_, Laws.EncodesInput.compress m, decode_encode (.compress m)⟩

/-- A value that fits its row's bits is laid on that many wires. -/
theorem tableWord_of_lt {nbits w : Nat} (h : w < 2 ^ nbits) : tableWord nbits w = BusWord.ofNat nbits w := by
  rw [tableWord, if_pos h]

theorem tableWord_uncompress (c : Code) : (tablePort 8, tableWord 8 c.toNat) = encode (.uncompress c) := by
  rw [tableWord_of_lt c.isLt]
  rfl

theorem tableWord_compress (m : Magnitude) : (tablePort 16, tableWord 16 m.toNat) = encode (.compress m) := by
  rw [tableWord_of_lt m.isLt]
  rfl

/-- Where a row's port and word are an operation's encoding, the row's word is read as that operation. -/
theorem decodeTableWord_of_encode {nbits w : Nat} {i : Instr} (h : (tablePort nbits, tableWord nbits w) = encode i) :
    decodeTableWord nbits w = some i := by
  rw [decodeTableWord, decode_of_eq_encode h]

/-- Where a row's port and word are an operation's encoding, that operation is the very next step, on the state as it
is. -/
theorem step_withFetchWord_of_encode {nbits w : Nat} {i : Instr}
    (h : (tablePort nbits, tableWord nbits w) = encode i) (s : State) : step (s.withFetchWord nbits w) = exec i s := by
  calc step (s.withFetchWord nbits w)
    _ = runLine (.drive (tablePort nbits) (tableWord nbits w)) s :=
        step_cons (s := s.withFetchWord nbits w) (ls := s.script) rfl
    _ = exec i s := runDrive_ok (decode_of_eq_encode h) s

/-- A row's word whose width is not its port's is no operation. -/
theorem decodeTableWord_of_width_ne {nbits w : Nat} (h : (tableWord nbits w).length ≠ (tablePort nbits).width) :
    decodeTableWord nbits w = none := by
  rw [decodeTableWord, decode, if_neg h]

/-- Only the two rows' own widths, with a value that fits, give a word of the port's width (log 14). -/
theorem tableWord_width_ne {nbits w : Nat} (h : (nbits ≠ 8 ∧ nbits ≠ 16) ∨ 2 ^ nbits ≤ w) :
    (tableWord nbits w).length ≠ (tablePort nbits).width := by
  have hport : (tablePort nbits).width = if nbits = 16 then 16 else 8 := by
    by_cases h16 : nbits = 16 <;> simp [tablePort, h16, InPort.width]
  rw [tableWord, BusWord.length_ofNat, hport]
  split_ifs <;> omega

/-- Settles O29: the words of the two rows are the encodings of the two operations, and every other word has not its
port's width. -/
theorem tableWordsRun : Obligations.TableWordsRun := by
  refine ⟨fun c s => ?_, fun m s => ?_, fun nbits w h => decodeTableWord_of_width_ne (tableWord_width_ne h)⟩
  · exact ⟨decodeTableWord_of_encode (tableWord_uncompress c), step_withFetchWord_of_encode (tableWord_uncompress c) s⟩
  · exact ⟨decodeTableWord_of_encode (tableWord_compress m), step_withFetchWord_of_encode (tableWord_compress m) s⟩

/-- Settles O27: each of the three words is the encoding of its operand. -/
theorem sampleWordsDecode : Obligations.SampleWordsDecode :=
  ⟨decode_encode (.uncompress 0x9A), decode_encode (.compress 0x3E80), decode_encode (.compress 0x0001)⟩

theorem Code.fraction_lt (c : Code) : c.fraction < 16 := Nat.mod_lt _ (by decide)

theorem Code.exponent_lt (c : Code) : c.exponent < 16 := Nat.div_lt_of_lt_mul c.isLt

theorem Code.toNat_eq_fields (c : Code) : c.toNat = 16 * c.exponent + c.fraction := (Nat.div_add_mod c.toNat 16).symm

/-- Settles O25: each field is a quotient or a remainder of the code by 16. -/
theorem codeFields : Obligations.CodeFields := by
  intro c
  have hexp := c.exponent_lt
  refine ⟨?_, ?_, Nat.le_of_lt_succ c.exponent_lt, Nat.le_of_lt_succ c.fraction_lt, c.toNat_eq_fields⟩
  · simp only [BitVec.extractLsb_toNat, Nat.shiftRight_eq_div_pow]
    exact (Nat.mod_eq_of_lt hexp).symm
  · simp only [BitVec.extractLsb_toNat, Nat.shiftRight_zero]
    rfl

end Sys2Proof
end

section
/-! SUPPORT. What a step over each kind of line answers, and what every step leaves of the inputs, the script and the
verdicts. -/

namespace Sys2Proof.Machine

/-- Settles O37: the outputs follow from the undriven inputs. -/
theorem resetIsUndriven : Obligations.ResetIsUndriven :=
  ⟨State.reset_decIn, State.reset_encIn, State.reset_decOut, State.reset_encOut, State.reset_script,
    State.reset_verdicts⟩

/-- Settles O38: the next line drives the word, and driving it is running the operation. -/
theorem stepRunsDecodedWord : Obligations.StepRunsDecodedWord := by
  intro s p w ls i hs hi
  exact (step_cons hs).trans (runDrive_ok hi _)

/-- A chaining line drives `enc_in` with the settled value of `dec_out` (rule R35). -/
theorem runEncDecOut_of_driven {s : State} {c : Code} (h : s.decIn = some c) :
    runEncDecOut s = exec (.compress (uncompress c)) s := by
  rw [runEncDecOut, State.decOut_of_decIn h]

/-- A chaining line drives `dec_in` with the settled value of `enc_out` (rule R35). -/
theorem runDecEncOut_of_driven {s : State} {m : Magnitude} (h : s.encIn = some m) :
    runDecEncOut s = exec (.uncompress (compress m)) s := by
  rw [runDecEncOut, State.encOut_of_encIn h]

/-- Settles O39: the source's input is driven, so its output is settled. -/
theorem stepRunsChainedLine : Obligations.StepRunsChainedLine := by
  refine ⟨fun s ls c hs hc => ?_, fun s ls m hs hm => ?_⟩
  · exact (step_cons hs).trans (runEncDecOut_of_driven (s := s.withScript ls) hc)
  · exact (step_cons hs).trans (runDecEncOut_of_driven (s := s.withScript ls) hm)

/-- Settles O40: the source's input is undriven, so its output is not settled. -/
theorem chainFromUndrivenRefused : Obligations.ChainFromUndrivenRefused := by
  refine ⟨fun s ls hs hc => ?_, fun s ls hs hm => ?_⟩
  · rw [step_cons hs, runLine, runEncDecOut, State.withScript_decOut, State.decOut, hc, Option.map_none]
  · rw [step_cons hs, runLine, runDecEncOut, State.withScript_encOut, State.encOut, hm, Option.map_none]

/-- An expected value is found exactly where the port is settled at it (log 7). -/
theorem judge_eq_holds_iff {n : Nat} (out : Option (BitVec n)) (v : BitVec n) :
    judge out v = .holds ↔ out = some v := by
  cases out with
  | none => simp
  | some u => by_cases huv : u = v <;> simp [huv]

/-- A verdict is open exactly where the port is not settled (log 7). -/
theorem judge_eq_unsettled_iff {n : Nat} (out : Option (BitVec n)) (v : BitVec n) :
    judge out v = .unsettled ↔ out = none := by
  cases out with
  | none => simp
  | some u => by_cases huv : u = v <;> simp [huv]

theorem State.decOut_eq_none_iff (s : State) : s.decOut = none ↔ s.decIn = none := Option.map_eq_none_iff

theorem State.encOut_eq_none_iff (s : State) : s.encOut = none ↔ s.encIn = none := Option.map_eq_none_iff

/-- Settles O41: an `EXPECT` line only records what `judge` finds on the port. -/
theorem expectLeavesBlockAlone : Obligations.ExpectLeavesBlockAlone := by
  refine ⟨fun s ls v hs => ?_, fun s ls v hs => ?_⟩
  · exact ⟨_, judge s.decOut v, step_cons hs, rfl, rfl, rfl, rfl, rfl, rfl, judge_eq_holds_iff _ v,
      (judge_eq_unsettled_iff _ v).trans s.decOut_eq_none_iff⟩
  · exact ⟨_, judge s.encOut v, step_cons hs, rfl, rfl, rfl, rfl, rfl, rfl, judge_eq_holds_iff _ v,
      (judge_eq_unsettled_iff _ v).trans s.encOut_eq_none_iff⟩

/-- A step takes the next line, if there is one, off the script. -/
theorem step_script_tail {s t : State} (h : step s = .next t) : t.script = s.script.tail := by
  rcases step_cases h with ⟨hs, rfl⟩ | ⟨w, ls, c, hs, _, rfl⟩ | ⟨w, ls, m, hs, _, rfl⟩ | ⟨ls, c, hs, _, rfl⟩ |
    ⟨ls, m, hs, _, rfl⟩ | ⟨ls, v, hs, rfl⟩ | ⟨ls, v, hs, rfl⟩ <;> simp [hs]

/-- A step keeps the verdicts so far and may note one more after them. -/
theorem step_verdicts_prefix {s t : State} (h : step s = .next t) : s.verdicts <+: t.verdicts := by
  rcases step_cases h with ⟨_, rfl⟩ | ⟨w, ls, c, _, _, rfl⟩ | ⟨w, ls, m, _, _, rfl⟩ | ⟨ls, c, _, _, rfl⟩ |
    ⟨ls, m, _, _, rfl⟩ | ⟨ls, v, _, rfl⟩ | ⟨ls, v, _, rfl⟩ <;> simp

/-- Settles O43: the script loses its first line and the verdicts stay at the front. -/
theorem stepTakesOneLine : Obligations.StepTakesOneLine := by
  refine ⟨fun s hs => step_nil hs, fun s t l ls hs h => ⟨?_, step_verdicts_prefix h⟩⟩
  rw [step_script_tail h, hs, List.tail_cons]

/-- A step leaves `dec_in` as it was, or a line that drives it has put a word on it. -/
theorem step_decIn_cases {s t : State} (h : step s = .next t) :
    t.decIn = s.decIn ∨ (t.decIn.isSome ∧ ∃ l ls, s.script = l :: ls ∧ t.script = ls ∧
      (l = .decEncOut ∨ ∃ w, l = .drive .dec w)) := by
  rcases step_cases h with ⟨_, rfl⟩ | ⟨w, ls, c, hs, _, rfl⟩ | ⟨w, ls, m, _, _, rfl⟩ | ⟨ls, c, _, _, rfl⟩ |
    ⟨ls, m, hs, _, rfl⟩ | ⟨ls, v, _, rfl⟩ | ⟨ls, v, _, rfl⟩
  case inr.inl => exact .inr ⟨rfl, _, ls, hs, rfl, .inr ⟨w, rfl⟩⟩
  case inr.inr.inr.inr.inl => exact .inr ⟨rfl, _, ls, hs, rfl, .inl rfl⟩
  all_goals exact .inl rfl

/-- A step leaves `enc_in` as it was, or a line that drives it has put a word on it. -/
theorem step_encIn_cases {s t : State} (h : step s = .next t) :
    t.encIn = s.encIn ∨ (t.encIn.isSome ∧ ∃ l ls, s.script = l :: ls ∧ t.script = ls ∧
      (l = .encDecOut ∨ ∃ w, l = .drive .enc w)) := by
  rcases step_cases h with ⟨_, rfl⟩ | ⟨w, ls, c, _, _, rfl⟩ | ⟨w, ls, m, hs, _, rfl⟩ | ⟨ls, c, hs, _, rfl⟩ |
    ⟨ls, m, _, _, rfl⟩ | ⟨ls, v, _, rfl⟩ | ⟨ls, v, _, rfl⟩
  case inr.inr.inl => exact .inr ⟨rfl, _, ls, hs, rfl, .inr ⟨w, rfl⟩⟩
  case inr.inr.inr.inl => exact .inr ⟨rfl, _, ls, hs, rfl, .inl rfl⟩
  all_goals exact .inl rfl

/-- Settles O42: a step that does not leave an input as it was ran a line that drives it, and left it driven. -/
theorem inputKeepsItsLastValue : Obligations.InputKeepsItsLastValue := by
  intro s t h
  refine ⟨fun hne => ?_, fun hne => ?_, fun hs => ?_, fun hs => ?_⟩
  · exact ((step_decIn_cases h).resolve_left hne).2
  · exact ((step_encIn_cases h).resolve_left hne).2
  · rcases step_decIn_cases h with heq | ⟨hsome, _⟩
    · rwa [heq]
    · exact hsome
  · rcases step_encIn_cases h with heq | ⟨hsome, _⟩
    · rwa [heq]
    · exact hsome

end Sys2Proof.Machine
end

section
/-! SUPPORT. Safe states: a step goes on from each of them, and the state it reaches is safe exactly if they are. -/

namespace Sys2Proof.Machine

/-- What a safe script asks of a line that drives a word on either port (rules R24, R66). -/
theorem wf_of_scriptSafe_drive {dec enc : Bool} {p : InPort} {w : BusWord} {ls : List Line}
    (h : scriptSafe dec enc (.drive p w :: ls) = true) : BusWord.wf p w = true := by
  cases p with
  | dec => exact (Bool.and_eq_true_iff.mp h).1
  | enc => exact (Bool.and_eq_true_iff.mp h).1

/-- Whether the rest of the script can run to its end is what it was before the step. -/
theorem step_safe_eq {s t : State} (h : step s = .next t) : t.safe = s.safe := by
  rcases step_cases h with ⟨_, rfl⟩ | ⟨w, ls, c, hs, hd, rfl⟩ | ⟨w, ls, m, hs, hd, rfl⟩ | ⟨ls, c, hs, hc, rfl⟩ |
    ⟨ls, m, hs, hm, rfl⟩ | ⟨ls, v, hs, rfl⟩ | ⟨ls, v, hs, rfl⟩
  · rfl
  · have hwf : BusWord.wf .dec w = true := (decode_isOk _ _).mp ⟨_, hd⟩
    simp [State.safe, hs, scriptSafe, hwf]
  · have hwf : BusWord.wf .enc w = true := (decode_isOk _ _).mp ⟨_, hd⟩
    simp [State.safe, hs, scriptSafe, hwf]
  · simp [State.safe, hs, scriptSafe, hc]
  · simp [State.safe, hs, scriptSafe, hm]
  · simp [State.safe, hs, scriptSafe]
  · simp [State.safe, hs, scriptSafe]

/-- Settles O45: a step leaves the verdict on the script as it was. -/
theorem stepKeepsSafe : Obligations.StepKeepsSafe := fun _ _ hsafe h => (step_safe_eq h).trans hsafe

/-- From a safe state the next line is not refused. -/
theorem step_of_safe {s : State} (h : s.safe = true) : ∃ t, step s = .next t := by
  cases hs : s.script with
  | nil => exact ⟨s, step_nil hs⟩
  | cons l ls =>
    rw [State.safe, hs] at h
    rw [step_cons hs]
    cases l with
    | drive p w =>
      obtain ⟨i, hi⟩ := (decode_isOk p w).mpr (wf_of_scriptSafe_drive h)
      rw [runLine, runDrive_ok hi]
      exact exec_answers i _
    | encDecOut =>
      obtain ⟨c, hc⟩ := Option.isSome_iff_exists.mp (Bool.and_eq_true_iff.mp h).1
      rw [runLine, runEncDecOut_of_driven (s := s.withScript ls) hc]
      exact exec_answers _ _
    | decEncOut =>
      obtain ⟨m, hm⟩ := Option.isSome_iff_exists.mp (Bool.and_eq_true_iff.mp h).1
      rw [runLine, runDecEncOut_of_driven (s := s.withScript ls) hm]
      exact exec_answers _ _
    | expectDecOut v => exact ⟨_, rfl⟩
    | expectEncOut v => exact ⟨_, rfl⟩

/-- Settles O44: the line's kind says why it is not refused. -/
theorem safeStateSteps : Obligations.SafeStateSteps := fun _ => step_of_safe

/-- From a safe state any number of steps run, and each takes a line off the script. -/
theorem run_of_safe (n : Nat) {s : State} (h : s.safe = true) :
    ∃ t : State, Host.Core.run Sys2Proof.core n s = .next t ∧ t.script = s.script.drop n := by
  induction n generalizing s with
  | zero => exact ⟨s, rfl, rfl⟩
  | succ n ih =>
    obtain ⟨u, hu⟩ := step_of_safe h
    obtain ⟨t, ht, hscript⟩ := ih ((step_safe_eq hu).trans h)
    refine ⟨t, (run_succ_of_next hu n).trans ht, ?_⟩
    rw [hscript, step_script_tail hu, List.drop_tail]

/-- A state from which the whole script runs is safe. -/
theorem safe_of_run {n : Nat} {s t : State} (hlen : s.script.length ≤ n)
    (h : Host.Core.run Sys2Proof.core n s = .next t) : s.safe = true := by
  induction n generalizing s with
  | zero =>
    have hnil : s.script = [] := List.eq_nil_of_length_eq_zero (Nat.le_zero.mp hlen)
    rw [State.safe, hnil, scriptSafe]
  | succ n ih =>
    obtain ⟨u, hu, hrun⟩ := run_succ_cases h
    have hlen' : u.script.length ≤ n := by
      rw [step_script_tail hu, List.length_tail]
      omega
    rw [← step_safe_eq hu]
    exact ih hlen' hrun

/-- Settles O47: a safe state stays safe and so runs on; a run as long as the script ends with a script that is done,
which is safe, and no step has changed that. -/
theorem safeIffNeverRefused : Obligations.SafeIffNeverRefused := by
  refine ⟨fun s => ⟨fun h n => ?_, fun h => ?_⟩, fun s h => ?_⟩
  · obtain ⟨t, ht, _⟩ := run_of_safe n h
    exact ⟨t, ht⟩
  · obtain ⟨t, ht⟩ := h s.script.length
    exact safe_of_run le_rfl ht
  · obtain ⟨t, ht, hscript⟩ := run_of_safe s.script.length h
    exact ⟨t, ht, by rw [hscript, List.drop_length]⟩

/-- A well-formed line that does not chain may stand before any safe script, whatever is driven. -/
theorem scriptSafe_of_no_chain (ls : List Line) (dec enc : Bool)
    (h : ∀ l ∈ ls, l.wf = true ∧ l ≠ .encDecOut ∧ l ≠ .decEncOut) : scriptSafe dec enc ls = true := by
  induction ls generalizing dec enc with
  | nil => rfl
  | cons l ls ih =>
    obtain ⟨⟨hwf, hne, hne'⟩, hls⟩ := List.forall_mem_cons.mp h
    cases l with
    | drive p w =>
      cases p with
      | dec => exact Bool.and_eq_true_iff.mpr ⟨hwf, ih _ _ hls⟩
      | enc => exact Bool.and_eq_true_iff.mpr ⟨hwf, ih _ _ hls⟩
    | encDecOut => exact absurd rfl hne
    | decEncOut => exact absurd rfl hne'
    | expectDecOut v => exact ih _ _ hls
    | expectEncOut v => exact ih _ _ hls

/-- Settles O46: with no chaining line it does not matter that both inputs are undriven. -/
theorem resetIsSafe : Obligations.ResetIsSafe := ⟨rfl, fun ls h => scriptSafe_of_no_chain ls _ _ h⟩

end Sys2Proof.Machine
end

section
/-! SUPPORT. The parts of a line's text: its words, and its numbers in hexadecimal. -/

namespace Sys2Proof.Machine

/-- What the reader takes for one word of a line: not empty and without a space (log 16). -/
def IsWord (w : List Char) : Prop := w ≠ [] ∧ ' ' ∉ w

/-- Characters other than the separator are added to the part being read. -/
theorem splitAtChar_append {sep : Char} {w : List Char} (h : sep ∉ w) (rest part : List Char) :
    splitAtChar sep (w ++ rest) part = splitAtChar sep rest (w.reverse ++ part) := by
  induction w generalizing part with
  | nil => rfl
  | cons c w ih =>
    have hc : c ≠ sep := (List.ne_of_not_mem_cons h).symm
    simp [splitAtChar, hc, ih (List.not_mem_of_not_mem_cons h)]

/-- A word is split into itself. -/
theorem splitAtChar_of_isWord {w : List Char} (h : IsWord w) : splitAtChar ' ' w [] = [w] := by
  obtain ⟨hne, hsp⟩ := h
  have := splitAtChar_append hsp [] []
  simpa [splitAtChar, hne] using this

/-- A word before a space is split off. -/
theorem splitAtChar_word_space {w : List Char} (h : IsWord w) (rest : List Char) :
    splitAtChar ' ' (w ++ ' ' :: rest) [] = w :: splitAtChar ' ' rest [] := by
  obtain ⟨hne, hsp⟩ := h
  rw [splitAtChar_append hsp]
  simp [splitAtChar, hne]

theorem readLine_word {w : List Char} (h : IsWord w) : readLine w = readCall w := by
  rw [readLine, splitAtChar_of_isWord h]

theorem readLine_two_words {op arg : List Char} (hop : IsWord op) (harg : IsWord arg) :
    readLine (op ++ ' ' :: arg) = readDrive op arg := by
  rw [readLine, splitAtChar_word_space hop, splitAtChar_of_isWord harg]

theorem readLine_four_words {op port eq arg : List Char} (hop : IsWord op) (hport : IsWord port) (heq : IsWord eq)
    (harg : IsWord arg) : readLine (op ++ ' ' :: (port ++ ' ' :: (eq ++ ' ' :: arg))) = readExpect op port eq arg := by
  rw [readLine, splitAtChar_word_space hop, splitAtChar_word_space hport, splitAtChar_word_space heq,
    splitAtChar_of_isWord harg]

theorem isWord_wordEnc : IsWord wordEnc := by simp [IsWord, wordEnc]
theorem isWord_wordDec : IsWord wordDec := by simp [IsWord, wordDec]
theorem isWord_wordExpect : IsWord wordExpect := by simp [IsWord, wordExpect]
theorem isWord_wordDecOut : IsWord wordDecOut := by simp [IsWord, wordDecOut]
theorem isWord_wordEncOut : IsWord wordEncOut := by simp [IsWord, wordEncOut]
theorem isWord_equals : IsWord ['='] := by simp [IsWord]

theorem digitValue_hexDigit {v : Nat} (h : v < 16) : digitValue 16 (hexDigit v) = some v :=
  (by decide : ∀ v < 16, digitValue 16 (hexDigit v) = some v) v h

/-- A row of digits is read from the left, each part after the value of the part before. -/
theorem digitsValue_append (base acc : Nat) (xs ys : List Char) :
    digitsValue base acc (xs ++ ys) = (digitsValue base acc xs).bind fun a => digitsValue base a ys := by
  induction xs generalizing acc with
  | nil => rfl
  | cons x xs ih => cases hx : digitValue base x <;> simp [digitsValue, hx, ih]

/-- `n` written digits are read as the low `4 * n` bits they were written from. -/
theorem digitsValue_hexDigits (n v acc : Nat) :
    digitsValue 16 acc (hexDigits n v) = some (16 ^ n * acc + v % 16 ^ n) := by
  induction n generalizing v with
  | zero => simp [hexDigits, digitsValue, Nat.mod_one]
  | succ n ih =>
    have hlast : digitValue 16 (hexDigit (v % 16)) = some (v % 16) := digitValue_hexDigit (Nat.mod_lt v (by decide))
    have hsplit : v % 16 ^ (n + 1) = v % 16 + 16 * (v / 16 % 16 ^ n) := by rw [Nat.pow_succ', Nat.mod_mul]
    have hvalue : 16 * (16 ^ n * acc + v / 16 % 16 ^ n) + v % 16 = 16 ^ (n + 1) * acc + v % 16 ^ (n + 1) := by
      rw [hsplit]
      ring
    simp [hexDigits, digitsValue_append, ih, digitsValue, hlast, hvalue]

theorem length_hexDigits (n v : Nat) : (hexDigits n v).length = n := by
  induction n generalizing v with
  | zero => rfl
  | succ n ih => simp [hexDigits, ih]

/-- Written digits hold no space, which is no digit. -/
theorem space_notMem_hexDigits (n v : Nat) : ' ' ∉ hexDigits n v := by
  induction n generalizing v with
  | zero => exact List.not_mem_nil
  | succ n ih =>
    have hlast : ' ' ≠ hexDigit (v % 16) := fun h => by
      have hv := digitValue_hexDigit (Nat.mod_lt v (show 16 > 0 by decide))
      rw [← h] at hv
      exact absurd hv (by simp [digitValue])
    simp [hexDigits, ih, hlast]

theorem isWord_hexNumber (n v : Nat) : IsWord (hexNumber n v) := by
  simp [IsWord, hexNumber, space_notMem_hexDigits]

/-- A number in hexadecimal is none of the names of rule R35, which begin with a letter. -/
theorem hexNumber_ne_cons {c : Char} (hc : '0' ≠ c) (n v : Nat) (cs : List Char) : hexNumber n v ≠ c :: cs :=
  fun h => hc (List.cons.inj h).1

theorem readNumber_hexNumber {n : Nat} (hn : 0 < n) (v : Nat) :
    readNumber (hexNumber n v) = some (v % 16 ^ n) := by
  have hvalue := digitsValue_hexDigits n v 0
  have hlen := length_hexDigits n v
  rw [hexNumber]
  cases hd : hexDigits n v with
  | nil =>
    rw [hd, List.length_nil] at hlen
    omega
  | cons d ds =>
    rw [hd, Nat.mul_zero, Nat.zero_add] at hvalue
    exact hvalue

/-- A word written with a digit for every four of its bits is read back. -/
theorem readWord_hexNumber {n : Nat} (hn : 0 < n) (b : BitVec (4 * n)) :
    readWord (4 * n) (hexNumber n b.toNat) = some b := by
  have hpow : 16 ^ n = 2 ^ (4 * n) := by rw [Nat.pow_mul]
  have hread : readNumber (hexNumber n b.toNat) = some b.toNat := by
    rw [readNumber_hexNumber hn, hpow, Nat.mod_eq_of_lt b.isLt]
  simp [readWord, hread, b.isLt]

theorem readWord_magnitude (m : Magnitude) : readWord 16 (hexNumber 4 m.toNat) = some m :=
  readWord_hexNumber (n := 4) (by decide) m

theorem readWord_code (c : Code) : readWord 8 (hexNumber 2 c.toNat) = some c :=
  readWord_hexNumber (n := 2) (by decide) c

end Sys2Proof.Machine
end

section
/-! SUPPORT. Reading each kind of line, writing it, and what a line that was read can be. -/

namespace Sys2Proof.Machine

/-- `ENC <m>` is read as the line that drives `m`. -/
theorem readLine_enc (m : Magnitude) : readLine (wordEnc ++ ' ' :: hexNumber 4 m.toNat) = some (encLine m) := by
  have hname : hexNumber 4 m.toNat ≠ wordDecOut := hexNumber_ne_cons (by decide) _ _ _
  rw [readLine_two_words isWord_wordEnc (isWord_hexNumber _ _), readDrive, if_pos rfl, if_neg hname,
    readWord_magnitude, Option.map_some]

/-- `DEC <c>` is read as the line that drives `c`. -/
theorem readLine_dec (c : Code) : readLine (wordDec ++ ' ' :: hexNumber 2 c.toNat) = some (decLine c) := by
  have hname : hexNumber 2 c.toNat ≠ wordEncOut := hexNumber_ne_cons (by decide) _ _ _
  rw [readLine_two_words isWord_wordDec (isWord_hexNumber _ _), readDrive, if_neg (by decide), if_pos rfl,
    if_neg hname, readWord_code, Option.map_some]

theorem readLine_encDecOut : readLine (wordEnc ++ ' ' :: wordDecOut) = some .encDecOut := by
  rw [readLine_two_words isWord_wordEnc isWord_wordDecOut, readDrive, if_pos rfl, if_pos rfl]

theorem readLine_decEncOut : readLine (wordDec ++ ' ' :: wordEncOut) = some .decEncOut := by
  rw [readLine_two_words isWord_wordDec isWord_wordEncOut, readDrive, if_neg (by decide), if_pos rfl, if_pos rfl]

theorem readLine_expectDecOut (v : Magnitude) :
    readLine (wordExpect ++ ' ' :: wordDecOut ++ [' ', '=', ' '] ++ hexNumber 4 v.toNat) = some (.expectDecOut v) := by
  calc readLine (wordExpect ++ ' ' :: (wordDecOut ++ ' ' :: (['='] ++ ' ' :: hexNumber 4 v.toNat)))
    _ = readExpect wordExpect wordDecOut ['='] (hexNumber 4 v.toNat) :=
        readLine_four_words isWord_wordExpect isWord_wordDecOut isWord_equals (isWord_hexNumber _ _)
    _ = some (.expectDecOut v) := by
        rw [readExpect, if_pos ⟨rfl, rfl⟩, if_pos rfl, readWord_magnitude, Option.map_some]

theorem readLine_expectEncOut (v : Code) :
    readLine (wordExpect ++ ' ' :: wordEncOut ++ [' ', '=', ' '] ++ hexNumber 2 v.toNat) = some (.expectEncOut v) := by
  calc readLine (wordExpect ++ ' ' :: (wordEncOut ++ ' ' :: (['='] ++ ' ' :: hexNumber 2 v.toNat)))
    _ = readExpect wordExpect wordEncOut ['='] (hexNumber 2 v.toNat) :=
        readLine_four_words isWord_wordExpect isWord_wordEncOut isWord_equals (isWord_hexNumber _ _)
    _ = some (.expectEncOut v) := by
        rw [readExpect, if_pos ⟨rfl, rfl⟩, if_neg (by decide), if_pos rfl, readWord_code, Option.map_some]

theorem writeLine_decLine (c : Code) : writeLine (decLine c) = some (wordDec ++ ' ' :: hexNumber 2 c.toNat) := by
  simp only [decLine, Instr.line, writeLine, decode_encode]

theorem writeLine_encLine (m : Magnitude) : writeLine (encLine m) = some (wordEnc ++ ' ' :: hexNumber 4 m.toNat) := by
  simp only [encLine, Instr.line, writeLine, decode_encode]

/-- A well-formed line that drives a word is the line of an operation (rules R31, R33). -/
theorem exists_line_of_wf_drive {p : InPort} {w : BusWord} (h : BusWord.wf p w = true) :
    ∃ i : Instr, Line.drive p w = i.line := by
  obtain ⟨i, hi⟩ := (decode_isOk p w).mpr h
  exact ⟨i, by rw [Instr.line, encode_of_decode_eq_ok hi]⟩

/-- Settles O51: each kind of line is written as a text that is read as that kind, its number zero-padded. -/
theorem scriptTextRoundTrip : Obligations.ScriptTextRoundTrip := by
  intro l hwf
  cases l with
  | drive p w =>
    obtain ⟨i, hi⟩ := exists_line_of_wf_drive hwf
    rw [hi]
    cases i with
    | uncompress c => exact ⟨_, writeLine_decLine c, readLine_dec c⟩
    | compress m => exact ⟨_, writeLine_encLine m, readLine_enc m⟩
  | encDecOut => exact ⟨_, rfl, readLine_encDecOut⟩
  | decEncOut => exact ⟨_, rfl, readLine_decEncOut⟩
  | expectDecOut v => exact ⟨_, rfl, readLine_expectDecOut v⟩
  | expectEncOut v => exact ⟨_, rfl, readLine_expectEncOut v⟩

theorem afterPrefix_append (start rest : List Char) : afterPrefix start (start ++ rest) = some rest := by
  induction start with
  | nil => rfl
  | cons a start ih => simp [afterPrefix, ih]

/-- The argument of a call is what stands before its closing bracket. -/
theorem callArgument_call (start arg : List Char) : callArgument start (start ++ arg ++ [')']) = some arg := by
  simp [callArgument, List.append_assoc, afterPrefix_append]

/-- A call of `compress` is no call of `uncompress`. -/
theorem callArgument_uncompress_of_compress (arg : List Char) :
    callArgument wordUncompress (wordCompress ++ arg) = none := rfl

theorem isWord_call {start arg : List Char} (hstart : IsWord start) (harg : IsWord arg) :
    IsWord (start ++ arg ++ [')']) := by
  obtain ⟨_, hsp⟩ := hstart
  obtain ⟨_, hsp'⟩ := harg
  simp [IsWord, hsp, hsp']

theorem readLine_uncompress (c : Code) :
    readLine (wordUncompress ++ hexNumber 2 c.toNat ++ [')']) = some (decLine c) := by
  have hname : IsWord wordUncompress := by simp [IsWord, wordUncompress]
  rw [readLine_word (isWord_call hname (isWord_hexNumber _ _)), readCall, callArgument_call]
  simp only [readWord_code, Option.map_some]

theorem readLine_compress (m : Magnitude) :
    readLine (wordCompress ++ hexNumber 4 m.toNat ++ [')']) = some (encLine m) := by
  have hname : IsWord wordCompress := by simp [IsWord, wordCompress]
  have hother : callArgument wordUncompress (wordCompress ++ hexNumber 4 m.toNat ++ [')']) = none :=
    callArgument_uncompress_of_compress _
  rw [readLine_word (isWord_call hname (isWord_hexNumber _ _)), readCall, hother]
  simp only [callArgument_call, readWord_magnitude, Option.map_some]

/-- Settles O53: both texts give the line that drives the operand. -/
theorem functionalNotation : Obligations.FunctionalNotation :=
  ⟨fun m => ⟨readLine_compress m, readLine_enc m⟩, fun c => ⟨readLine_uncompress c, readLine_dec c⟩⟩

/-- The line that drives an operation is well formed (rule R33). -/
theorem line_wf (i : Instr) : i.line.wf = true := by
  cases i with
  | uncompress c => exact Laws.EncodesInput.uncompress c
  | compress m => exact Laws.EncodesInput.compress m

/-- A line made of a word that was read is well formed if every such line is. -/
theorem wf_of_map_eq_some {n : Nat} {f : BitVec n → Line} (hf : ∀ b, (f b).wf = true) {o : Option (BitVec n)}
    {l : Line} (h : o.map f = some l) : l.wf = true := by
  obtain ⟨b, _, rfl⟩ := Option.map_eq_some_iff.mp h
  exact hf b

theorem readCall_wf {w : List Char} {l : Line} (h : readCall w = some l) : l.wf = true := by
  unfold readCall at h
  split at h
  · exact wf_of_map_eq_some (fun c => line_wf (.uncompress c)) h
  · split at h
    · exact wf_of_map_eq_some (fun m => line_wf (.compress m)) h
    · cases h

theorem readDrive_wf {op arg : List Char} {l : Line} (h : readDrive op arg = some l) : l.wf = true := by
  unfold readDrive at h
  split_ifs at h
  · cases h
    rfl
  · exact wf_of_map_eq_some (fun m => line_wf (.compress m)) h
  · cases h
    rfl
  · exact wf_of_map_eq_some (fun c => line_wf (.uncompress c)) h

theorem readExpect_wf {op port eq arg : List Char} {l : Line} (h : readExpect op port eq arg = some l) :
    l.wf = true := by
  unfold readExpect at h
  split_ifs at h
  · exact wf_of_map_eq_some (fun _ => rfl) h
  · exact wf_of_map_eq_some (fun _ => rfl) h

/-- Settles O52: a number is read as a word of the port's width, and the line that drives it is its encoding. -/
theorem readLinesAreWellFormed : Obligations.ReadLinesAreWellFormed := by
  intro text l h
  unfold readLine at h
  split at h
  · exact readCall_wf h
  · exact readDrive_wf h
  · exact readExpect_wf h
  · cases h

end Sys2Proof.Machine
end

section
/-! SUPPORT. The canonical codes as a grid (rule R32): which codes stand on it, and the next one below. -/

namespace Sys2Proof.Machine

/-- The distance of the canonical codes from each other at a code's exponent (rule R32): the encoder has only `e`
fraction bits below exponent 4, and one at exponent 0. -/
def canonicalStep (c : Code) : Nat := 2 ^ min 3 (4 - c.exponent)

theorem canonicalStep_dvd_sixteen (c : Code) : canonicalStep c ∣ 16 :=
  Nat.pow_dvd_pow 2 (show min 3 (4 - c.exponent) ≤ 4 by omega)

/-- A higher exponent has a finer grid. -/
theorem canonicalStep_dvd_of_le {c c' : Code} (h : c.exponent ≤ c'.exponent) : canonicalStep c' ∣ canonicalStep c :=
  Nat.pow_dvd_pow 2 (by omega)

/-- The exponents the rule's list tells apart, each with its step. -/
theorem canonicalStep_cases (c : Code) :
    (c.exponent = 0 ∧ canonicalStep c = 8) ∨ (c.exponent = 1 ∧ canonicalStep c = 8) ∨
    (c.exponent = 2 ∧ canonicalStep c = 4) ∨ (c.exponent = 3 ∧ canonicalStep c = 2) ∨
    (4 ≤ c.exponent ∧ canonicalStep c = 1) := by
  by_cases h4 : 4 ≤ c.exponent
  · rw [canonicalStep, Nat.sub_eq_zero_of_le h4]
    simp [h4]
  · have h : c.exponent < 4 := Nat.lt_of_not_le h4
    rw [canonicalStep]
    interval_cases c.exponent <;> simp

/-- From exponent 4 on every code is canonical (rule R32). -/
theorem isCanonical_of_four_le {c : Code} (h : 4 ≤ c.exponent) : isCanonical c = true := by
  unfold isCanonical
  split
  case h_5 => rfl
  all_goals omega

/-- From exponent 4 on no code has another one below it. -/
theorem canonicalBelow_of_four_le {c : Code} (h : 4 ≤ c.exponent) : canonicalBelow c = c := by
  unfold canonicalBelow
  split
  case h_5 => rfl
  all_goals omega

/-- The canonical codes are those on the grid of their exponent. -/
theorem isCanonical_iff_dvd (c : Code) : isCanonical c = true ↔ canonicalStep c ∣ c.toNat := by
  have hc := c.toNat_eq_fields
  have hf := c.fraction_lt
  rcases canonicalStep_cases c with ⟨h, hg⟩ | ⟨h, hg⟩ | ⟨h, hg⟩ | ⟨h, hg⟩ | ⟨h, hg⟩
  · simp only [isCanonical, hg, h, Bool.or_eq_true, beq_iff_eq]
    omega
  · simp only [isCanonical, hg, h, beq_iff_eq]
    omega
  · simp only [isCanonical, hg, h, beq_iff_eq]
    omega
  · simp only [isCanonical, hg, h, beq_iff_eq]
    omega
  · simp [isCanonical_of_four_le h, hg]

/-- The code below is the grid point at or below the code. -/
theorem canonicalBelow_toNat (c : Code) : (canonicalBelow c).toNat = canonicalStep c * (c.toNat / canonicalStep c) := by
  have hc := c.toNat_eq_fields
  have hf := c.fraction_lt
  rcases canonicalStep_cases c with ⟨h, hg⟩ | ⟨h, hg⟩ | ⟨h, hg⟩ | ⟨h, hg⟩ | ⟨h, hg⟩
  case inr.inr.inr.inr => rw [canonicalBelow_of_four_le h, hg, Nat.div_one, Nat.one_mul]
  all_goals
    simp only [canonicalBelow, hg, h, zext, BitVec.toNat_ofNat]
    omega

theorem canonicalBelow_le (c : Code) : (canonicalBelow c).toNat ≤ c.toNat := by
  rw [canonicalBelow_toNat]
  exact Nat.mul_div_le _ _

/-- Going down to the grid does not leave the exponent, whose first code stands on it. -/
theorem canonicalBelow_exponent (c : Code) : (canonicalBelow c).exponent = c.exponent := by
  obtain ⟨k, hk⟩ := canonicalStep_dvd_sixteen c
  have hpos : 0 < canonicalStep c := Nat.two_pow_pos _
  rw [Code.exponent, Code.exponent, canonicalBelow_toNat, hk, Nat.mul_div_mul_left _ _ hpos, Nat.div_div_eq_div_mul]

theorem isCanonical_canonicalBelow (c : Code) : isCanonical (canonicalBelow c) = true := by
  rw [isCanonical_iff_dvd, canonicalStep, canonicalBelow_exponent, canonicalBelow_toNat]
  exact Nat.dvd_mul_right _ _

/-- A code that is not canonical has its canonical code strictly below it. -/
theorem canonicalBelow_lt {c : Code} (h : isCanonical c = false) : (canonicalBelow c).toNat < c.toNat := by
  refine Nat.lt_of_le_of_ne (canonicalBelow_le c) fun heq => ?_
  rw [← BitVec.eq_of_toNat_eq heq, isCanonical_canonicalBelow] at h
  cases h

/-- No canonical code stands between a code and the one below it. -/
theorem le_canonicalBelow {c c' : Code} (hcan : isCanonical c' = true) (hle : c'.toNat ≤ c.toNat) :
    c'.toNat ≤ (canonicalBelow c).toNat := by
  have hexp : c'.exponent ≤ c.exponent := Nat.div_le_div_right hle
  obtain ⟨k, hk⟩ := (canonicalStep_dvd_of_le hexp).trans ((isCanonical_iff_dvd c').mp hcan)
  have hpos : 0 < canonicalStep c := Nat.two_pow_pos _
  rw [canonicalBelow_toNat, hk]
  refine Nat.mul_le_mul_left _ ((Nat.le_div_iff_mul_le hpos).mpr ?_)
  rwa [Nat.mul_comm, ← hk]

/-- The decoder between the zero band and exponent 4 (rules R38, R39). -/
theorem uncompressNat_of_exponent_lt_four {c : Code} (h8 : 8 ≤ c.toNat) (h4 : c.exponent < 4) :
    uncompressNat c.toNat = (16 + c.fraction) / 2 ^ (4 - c.exponent) := by
  have hlow : ¬ 4 ≤ c.toNat / 16 := Nat.not_le.mpr h4
  rw [uncompressNat_shift h8 c.isLt, if_neg hlow, Code.fraction, Code.exponent]

/-- The decoder does not see the fraction bits below the grid (rules R37, R38, R39). -/
theorem uncompress_canonicalBelow (c : Code) : uncompress (canonicalBelow c) = uncompress c := by
  refine congrArg (zext 16) (show uncompressNat (canonicalBelow c).toNat = uncompressNat c.toNat from ?_)
  by_cases h4 : 4 ≤ c.exponent
  · rw [canonicalBelow_of_four_le h4]
  by_cases h8 : c.toNat < 8
  · rw [uncompressNat_zeroBand h8, uncompressNat_zeroBand (Nat.lt_of_le_of_lt (canonicalBelow_le c) h8)]
  have hexp := canonicalBelow_exponent c
  have hlt : c.exponent < 4 := Nat.lt_of_not_le h4
  have hge : 8 ≤ c.toNat := Nat.le_of_not_lt h8
  have hge' : 8 ≤ (canonicalBelow c).toNat := le_canonicalBelow (c' := 0x08) rfl hge
  rw [uncompressNat_of_exponent_lt_four hge hlt, uncompressNat_of_exponent_lt_four hge' (hexp ▸ hlt), hexp]
  have hc := c.toNat_eq_fields
  have hb := (canonicalBelow c).toNat_eq_fields
  have hbelow := canonicalBelow_toNat c
  rcases canonicalStep_cases c with ⟨h, hg⟩ | ⟨h, hg⟩ | ⟨h, hg⟩ | ⟨h, hg⟩ | ⟨h, _⟩
  case inr.inr.inr.inr => exact absurd h h4
  all_goals
    rw [hg] at hbelow
    rw [hexp, h] at hb
    rw [h] at hc ⊢
    omega

end Sys2Proof.Machine
end

section
/-! SUPPORT. The encoder on the rounding band and on the decoder's own outputs, and with it rule R32. -/

namespace Sys2Proof.Machine

/-- The output is the raw result with the clamp of rule R48. -/
theorem compress_toNat (m : Magnitude) : (compress m).toNat = min 0xFF (compressRaw m.toNat) := by
  rw [compress, compressWith]
  by_cases h : compressRaw m.toNat ≤ 0xFF
  · rw [narrow_of_le h, BitVec.toNat_ofNat, Nat.min_eq_right h, Nat.mod_eq_of_lt (Nat.lt_succ_of_le h)]
  · have hgt : compressRaw m.toNat > 0xFF := Nat.lt_of_not_le h
    rw [narrow_saturate_of_gt hgt, Nat.min_eq_left (Nat.le_of_lt hgt)]
    rfl

/-- The rounding band starts at exponent 5 (rule R46). -/
theorem five_le_msb {m : Nat} (h : 32 ≤ m) : 5 ≤ msb m :=
  (Nat.le_log2 (Nat.ne_zero_of_lt h)).mpr h

theorem compressRaw_of_le {m : Nat} (h : 32 ≤ m) : compressRaw m = compressRounding m (msb m) := by
  rw [compressRaw, if_neg (by omega), if_neg (by omega)]
  exact if_neg (Nat.not_lt.mpr (five_le_msb h))

/-- The window has six bits (rule R46). -/
theorem window_lt {m : Nat} (h : 32 ≤ m) : window m (msb m) < 64 := by
  obtain ⟨k, hk⟩ := Nat.exists_eq_add_of_le (five_le_msb h)
  have hhi := (msb_bounds (Nat.ne_zero_of_lt h)).2
  rw [window_eq, hk, Nat.add_sub_cancel_left]
  rw [hk] at hhi
  refine Nat.div_lt_of_lt_mul (Nat.lt_of_lt_of_eq hhi ?_)
  ring

/-- Rounding adds at most 2 to the window (rule R46). -/
theorem roundWindow_le (w : Nat) : roundWindow w ≤ w + 2 := by
  rw [roundWindow_eq]
  split <;> omega

/-- The rounding band never gives a code below the first one of its exponent. -/
theorem le_compressRaw {m : Nat} (h : 32 ≤ m) : 16 * msb m ≤ compressRaw m := by
  have hw := window_lt h
  have hr := roundWindow_le (window m (msb m))
  rw [compressRaw_of_le h, compressRounding_eq _ _ (by omega)]
  split <;> omega

/-- The encoder outputs canonical codes only (rule R32). -/
theorem isCanonical_compress (m : Magnitude) : isCanonical (compress m) = true := by
  by_cases h : 32 ≤ m.toNat
  · refine isCanonical_of_four_le ?_
    have hraw := le_compressRaw h
    have he := five_le_msb h
    rw [Code.exponent, compress_toNat]
    omega
  · have hexact : ∀ n < 32, isCanonical (compress (BitVec.ofNat 16 n)) = true := by decide
    simpa using hexact m.toNat (Nat.lt_of_not_le h)

/-- The encoder on a magnitude whose significand needs no rounding: no guard bit, no carry (rules R46, R47). -/
theorem compressRaw_significand {f : Nat} (k : Nat) (hf : f < 16) :
    compressRaw ((16 + f) * 2 ^ (k + 1)) = 16 * (k + 5) + f := by
  have hpos := Nat.two_pow_pos k
  have hm : (16 + f) * 2 ^ (k + 1) = (32 + 2 * f) * 2 ^ k := by ring
  have hlo : 2 ^ (k + 5) ≤ (32 + 2 * f) * 2 ^ k := by
    rw [Nat.pow_add, Nat.mul_comm]
    exact Nat.mul_le_mul_right _ (by omega)
  have hhi : (32 + 2 * f) * 2 ^ k < 2 ^ (k + 5 + 1) := by
    rw [Nat.add_assoc, Nat.pow_add, Nat.mul_comm (2 ^ k)]
    exact Nat.mul_lt_mul_of_pos_right (by omega) hpos
  have h32 : 32 ≤ (32 + 2 * f) * 2 ^ k :=
    Nat.le_trans (by omega) (Nat.le_mul_of_pos_right (32 + 2 * f) hpos)
  have hwindow : roundWindow (window ((32 + 2 * f) * 2 ^ k) (k + 5)) = 32 + 2 * f := by
    rw [window_eq, Nat.add_sub_cancel, Nat.mul_div_cancel _ hpos, roundWindow_eq, if_neg (by omega)]
  rw [hm, compressRaw_of_le h32, msb_unique hlo hhi, compressRounding_eq _ _ (by omega), hwindow, if_neg (by omega)]
  omega

/-- The decoder's output at exponents 5 to 15 (rule R40). -/
theorem uncompress_toNat_of_five_le {c : Code} (h : 5 ≤ c.exponent) :
    (uncompress c).toNat = (16 + c.fraction) * 2 ^ (c.exponent - 4) := by
  have hc : c.toNat < 256 := c.isLt
  have hf := c.fraction_lt
  have he : c.exponent = c.toNat / 16 := rfl
  have hpow : 2 ^ (c.exponent - 4) ≤ 2 ^ 11 := Nat.pow_le_pow_right (by decide) (by omega)
  have hfit : (16 + c.fraction) * 2 ^ (c.exponent - 4) < 2 ^ 16 := by
    have := Nat.mul_le_mul (show 16 + c.fraction ≤ 31 by omega) hpow
    omega
  rw [uncompress, zext, BitVec.toNat_ofNat, uncompressNat_shift (by omega) hc, if_pos (by omega)]
  exact Nat.mod_eq_of_lt hfit

/-- A canonical code comes back from its own magnitude (rule R32). -/
theorem compress_uncompress {c : Code} (h : isCanonical c = true) : compress (uncompress c) = c := by
  by_cases h5 : 5 ≤ c.exponent
  · obtain ⟨k, hk⟩ := Nat.exists_eq_add_of_le h5
    have hraw : compressRaw (uncompress c).toNat = c.toNat := by
      have hexp : c.exponent - 4 = k + 1 := by omega
      rw [uncompress_toNat_of_five_le h5, hexp, compressRaw_significand k (c.fraction_lt),
        c.toNat_eq_fields, hk, Nat.add_comm k]
    refine BitVec.eq_of_toNat_eq ?_
    rw [compress_toNat, hraw]
    exact Nat.min_eq_right (Nat.le_of_lt_succ c.isLt)
  · have hexact : ∀ n < 80, isCanonical (BitVec.ofNat 8 n) = true →
        compress (uncompress (BitVec.ofNat 8 n)) = BitVec.ofNat 8 n := by decide
    have hlt : c.toNat < 80 := by
      rw [Code.exponent] at h5
      omega
    simpa [h] using hexact c.toNat hlt

/-- Decoding, encoding and decoding again is decoding (rule R32). -/
theorem uncompress_compress_uncompress (c : Code) : uncompress (compress (uncompress c)) = uncompress c := by
  rw [← uncompress_canonicalBelow c, compress_uncompress (isCanonical_canonicalBelow c)]

/-- The codes below exponent 4 that rule R32 lists as canonical. -/
theorem isCanonical_iff_mem_of_lt {c : Code} (h : c.toNat < 0x40) : isCanonical c = true ↔
    c ∈ ([0x00, 0x08, 0x10, 0x18, 0x20, 0x24, 0x28, 0x2C,
      0x30, 0x32, 0x34, 0x36, 0x38, 0x3A, 0x3C, 0x3E] : List Code) := by
  have hlist : ∀ n < 0x40, isCanonical (BitVec.ofNat 8 n) = true ↔
      BitVec.ofNat 8 n ∈ ([0x00, 0x08, 0x10, 0x18, 0x20, 0x24, 0x28, 0x2C,
        0x30, 0x32, 0x34, 0x36, 0x38, 0x3A, 0x3C, 0x3E] : List Code) := by decide
  simpa only [BitVec.ofNat_toNat, BitVec.setWidth_eq] using hlist c.toNat h

/-- From 0x40 on every code is canonical (rule R32). -/
theorem isCanonical_of_le {c : Code} (h : 0x40 ≤ c.toNat) : isCanonical c = true :=
  isCanonical_of_four_le ((Nat.le_div_iff_mul_le (by decide)).mpr h)

/-- There are 16 canonical codes below 0x40 and 192 from there on (rule R32). -/
theorem length_filter_isCanonical : ((List.range 256).filter fun n => isCanonical (BitVec.ofNat 8 n)).length = 208 := by
  have hsplit : List.range 256 = List.range 64 ++ (List.range 192).map (64 + ·) := List.range_add (n := 64) (m := 192)
  have hlow : ((List.range 64).filter fun n => isCanonical (BitVec.ofNat 8 n)).length = 16 := by decide
  have hhigh : ((List.range 192).map (64 + ·)).filter (fun n => isCanonical (BitVec.ofNat 8 n)) =
      (List.range 192).map (64 + ·) := by
    refine List.filter_eq_self.mpr fun n hn => isCanonical_of_le ?_
    obtain ⟨k, hk, rfl⟩ := List.mem_map.mp hn
    have := List.mem_range.mp hk
    rw [BitVec.toNat_ofNat]
    omega
  rw [hsplit, List.filter_append, List.length_append, hlow, hhigh, List.length_map, List.length_range]

/-- Settles O20: the encoder outputs only codes on the grid and gives each of them back; the list is the grid below
exponent 4; and the code below is the next grid point down, which the decoder does not tell from the code. -/
theorem canonicalCodes : Obligations.CanonicalCodes := by
  refine ⟨fun c => ⟨?_, fun h => ⟨uncompress c, compress_uncompress h⟩⟩, fun c => ?_, length_filter_isCanonical,
    fun c h => ?_, fun c h => compress_uncompress h, uncompress_compress_uncompress⟩
  · rintro ⟨m, rfl⟩
    exact isCanonical_compress m
  · by_cases h : c.toNat < 0x40
    · rw [or_iff_left (Nat.not_le.mpr h), isCanonical_iff_mem_of_lt h]
    · exact iff_of_true (isCanonical_of_le (Nat.le_of_not_lt h)) (.inr (Nat.le_of_not_lt h))
  · exact ⟨isCanonical_canonicalBelow c, canonicalBelow_lt h,
      fun c' hcan hlt => le_canonicalBelow hcan (Nat.le_of_lt hlt), (uncompress_canonicalBelow c).symm⟩

end Sys2Proof.Machine
end

section
/-! SUPPORT. The round trips of rule R32 as scripts that chain the block's own ports (rule R35). -/

namespace Sys2Proof.Machine

/-- A script line that drives an operation runs it. -/
theorem step_line {s : State} {i : Instr} {ls : List Line} (h : s.script = i.line :: ls) :
    step s = exec i (s.withScript ls) :=
  stepRunsDecodedWord s _ _ ls i h (decode_encode i)

/-- The state after `DEC c` and `ENC dec_out`. -/
def State.afterDecEnc (c : Code) (ls : List Line) (s : State) : State :=
  ((s.withScript ls).driveDec c).driveEnc (uncompress c)

/-- `DEC c` and then `ENC dec_out` run, and drive `enc_in` with `UNCOMPRESS(c)`. -/
theorem run_decLine_encDecOut {c : Code} {ls : List Line} {s : State} (h : s.script = decLine c :: .encDecOut :: ls)
    (n : Nat) :
    Host.Core.run Sys2Proof.core (n + 2) s = Host.Core.run Sys2Proof.core n (s.afterDecEnc c ls) := by
  have hdec : step s = .next ((s.withScript (.encDecOut :: ls)).driveDec c) := step_line h
  have henc : step ((s.withScript (.encDecOut :: ls)).driveDec c) = .next (s.afterDecEnc c ls) :=
    stepRunsChainedLine.1 _ ls c rfl rfl
  rw [run_succ_of_next hdec, run_succ_of_next henc]

/-- Settles O48: `enc_in` then carries `UNCOMPRESS(c)`, whose code is `c` where `c` is canonical, and the third line
drives that code on `dec_in`, which decodes as `c` does. -/
theorem roundTripThroughPorts : Obligations.RoundTripThroughPorts := by
  refine ⟨fun c s hcan hs => ?_, fun c s hs => ?_⟩
  · refine ⟨s.afterDecEnc c [], run_decLine_encDecOut hs 0, ?_, rfl⟩
    exact congrArg some (compress_uncompress hcan)
  · have hdec : step (s.afterDecEnc c [.decEncOut]) =
        .next (((s.afterDecEnc c [.decEncOut]).withScript []).driveDec (compress (uncompress c))) :=
      stepRunsChainedLine.2 _ [] (uncompress c) rfl rfl
    refine ⟨_, (run_decLine_encDecOut hs 1).trans (run_succ_of_next hdec 0), ?_, rfl⟩
    exact congrArg some (uncompress_compress_uncompress c)

end Sys2Proof.Machine
end

section
/-! SUPPORT. A code and its fields: the bands of codes by exponent and fraction. -/

namespace Sys2Proof

/-- A code's exponent is at least `e` exactly from the first code of exponent `e` on. -/
theorem Code.le_exponent_iff {c : Code} {e : Nat} : e ≤ c.exponent ↔ 16 * e ≤ c.toNat := by
  rw [Code.exponent, Nat.le_div_iff_mul_le (by decide), Nat.mul_comm]

/-- The zero band is the lower half of exponent 0 (rule R37). -/
theorem Code.toNat_lt_eight_iff (c : Code) : c.toNat < 8 ↔ c.exponent = 0 ∧ c.fraction < 8 := by
  have hc := c.toNat_eq_fields
  omega

/-- Every pair of fields is that of a code (rule R29). -/
theorem Code.exists_of_fields {e f : Nat} (he : e ≤ 15) (hf : f ≤ 15) :
    ∃ c : Code, c.exponent = e ∧ c.fraction = f := by
  refine ⟨BitVec.ofNat 8 (16 * e + f), ?_, ?_⟩
  · rw [Code.exponent, BitVec.toNat_ofNat]
    omega
  · rw [Code.fraction, BitVec.toNat_ofNat]
    omega

end Sys2Proof
end

section
/-! SUPPORT. The decoder's output as a number: its closed form (rule R36), and the form of each exponent band (rules R37 to
R40). -/

namespace Sys2Proof.Machine

/-- The decoder from exponent 4 on (rule R40). -/
theorem uncompressNat_of_four_le {c : Code} (h4 : 4 ≤ c.exponent) :
    uncompressNat c.toNat = (16 + c.fraction) * 2 ^ (c.exponent - 4) := by
  have h64 : 64 ≤ c.toNat := Code.le_exponent_iff.mp h4
  have hhigh : 4 ≤ c.toNat / 16 := h4
  rw [uncompressNat_shift (by omega) c.isLt, if_pos hhigh, Code.fraction, Code.exponent]

/-- The shift of steps 3 and 4 as one scaling of the significand, rounded down (rule R36). -/
theorem uncompressNat_eq_scaled {c : Code} (h8 : 8 ≤ c.toNat) :
    uncompressNat c.toNat = (16 + c.fraction) * 2 ^ c.exponent / 16 := by
  by_cases h4 : 4 ≤ c.exponent
  · have hpow : 2 ^ c.exponent = 2 ^ (c.exponent - 4) * 16 := (Nat.pow_sub_mul_pow 2 h4).symm
    rw [uncompressNat_of_four_le h4, hpow, ← Nat.mul_assoc, Nat.mul_div_cancel _ (by decide)]
  · have hlt : c.exponent < 4 := Nat.lt_of_not_le h4
    have hpow : 16 = 2 ^ (4 - c.exponent) * 2 ^ c.exponent := (Nat.pow_sub_mul_pow 2 (Nat.le_of_lt hlt)).symm
    calc uncompressNat c.toNat
      _ = (16 + c.fraction) / 2 ^ (4 - c.exponent) := uncompressNat_of_exponent_lt_four h8 hlt
      _ = (16 + c.fraction) * 2 ^ c.exponent / (2 ^ (4 - c.exponent) * 2 ^ c.exponent) :=
        (Nat.mul_div_mul_right _ _ (Nat.two_pow_pos _)).symm
      _ = (16 + c.fraction) * 2 ^ c.exponent / 16 := by rw [← hpow]

/-- The greatest significand at the greatest exponent bounds every output (rule R36). -/
theorem uncompressNat_le (c : Code) : uncompressNat c.toNat ≤ 0xF800 := by
  by_cases h8 : c.toNat < 8
  · rw [uncompressNat_zeroBand h8]
    exact Nat.zero_le _
  · have hsig : 16 + c.fraction ≤ 31 := Nat.add_le_add_left (Nat.le_of_lt_succ c.fraction_lt) 16
    have hpow : 2 ^ c.exponent ≤ 2 ^ 15 := Nat.pow_le_pow_right (by decide) (Nat.le_of_lt_succ c.exponent_lt)
    rw [uncompressNat_eq_scaled (Nat.le_of_not_lt h8)]
    exact Nat.div_le_div_right (Nat.mul_le_mul hsig hpow)

/-- The output port holds the whole result (rule R36). -/
theorem uncompress_toNat (c : Code) : (uncompress c).toNat = uncompressNat c.toNat := by
  rw [uncompress, zext, BitVec.toNat_ofNat]
  exact Nat.mod_eq_of_lt (Nat.lt_of_le_of_lt (uncompressNat_le c) (by decide))

theorem uncompress_toNat_le (c : Code) : (uncompress c).toNat ≤ 0xF800 :=
  uncompress_toNat c ▸ uncompressNat_le c

theorem uncompress_zeroBand {c : Code} (h : c.toNat < 8) : uncompress c = 0 := by
  rw [uncompress, uncompressNat_zeroBand h]
  rfl

theorem uncompress_toNat_eq_scaled {c : Code} (h8 : 8 ≤ c.toNat) :
    (uncompress c).toNat = (16 + c.fraction) * 2 ^ c.exponent / 16 :=
  (uncompress_toNat c).trans (uncompressNat_eq_scaled h8)

theorem uncompress_toNat_eq_shiftRight {c : Code} (h8 : 8 ≤ c.toNat) (h4 : c.exponent < 4) :
    (uncompress c).toNat = (16 + c.fraction) >>> (4 - c.exponent) := by
  rw [uncompress_toNat, uncompressNat_of_exponent_lt_four h8 h4, Nat.shiftRight_eq_div_pow]

theorem uncompress_toNat_eq_shiftLeft {c : Code} (h4 : 4 ≤ c.exponent) :
    (uncompress c).toNat = (16 + c.fraction) <<< (c.exponent - 4) := by
  rw [uncompress_toNat, uncompressNat_of_four_le h4, Nat.shiftLeft_eq]

/-- At exponents 1 to 3 the implicit bit stands at bit `e`, and the fraction loses its low `4 - e` bits (rule R39). -/
theorem uncompress_toNat_eq_two_pow_add {c : Code} (h1 : 1 ≤ c.exponent) (h4 : c.exponent < 4) :
    (uncompress c).toNat = 2 ^ c.exponent + c.fraction / 2 ^ (4 - c.exponent) := by
  have h16 : 16 ≤ c.toNat := Code.le_exponent_iff.mp h1
  have hpow : 16 = 2 ^ (4 - c.exponent) * 2 ^ c.exponent := (Nat.pow_sub_mul_pow 2 (Nat.le_of_lt h4)).symm
  calc (uncompress c).toNat
    _ = (16 + c.fraction) / 2 ^ (4 - c.exponent) := by
      rw [uncompress_toNat, uncompressNat_of_exponent_lt_four (by omega) h4]
    _ = (2 ^ (4 - c.exponent) * 2 ^ c.exponent + c.fraction) / 2 ^ (4 - c.exponent) := by rw [← hpow]
    _ = 2 ^ c.exponent + c.fraction / 2 ^ (4 - c.exponent) := Nat.mul_add_div (Nat.two_pow_pos _) _ _

/-- The glossary's reading of exponent 0: `f/16`, rounded half-up (rule R38). -/
theorem uncompress_toNat_of_exponent_zero {c : Code} (h : c.exponent = 0) :
    (uncompress c).toNat = (c.fraction + 8) / 16 := by
  have hf := c.fraction_lt
  have hc := c.toNat_eq_fields
  by_cases h8 : c.toNat < 8
  · have hzero : (c.fraction + 8) / 16 = 0 := by omega
    rw [uncompress_zeroBand h8, hzero]
    rfl
  · rw [uncompress_toNat_eq_scaled (Nat.le_of_not_lt h8), h]
    omega

/-- The upper half of exponent 0 gives 1 (rule R38). -/
theorem uncompress_eq_one {c : Code} (hlo : 0x08 ≤ c.toNat) (hhi : c.toNat ≤ 0x0F) : uncompress c = 1 := by
  have hc := c.toNat_eq_fields
  have he : c.exponent = 0 := by omega
  have hone : (c.fraction + 8) / 16 = 1 := by
    have hf := c.fraction_lt
    omega
  exact BitVec.eq_of_toNat_eq ((uncompress_toNat_of_exponent_zero he).trans hone)

/-- Settles O1: the scaled significand is the closed form, a shift by the exponent's distance from 4 computes it, and its
greatest value is that of code 0xFF. -/
theorem uncompressResult : Obligations.UncompressResult := by
  intro c s
  refine ⟨s.driveDec c, uncompress c, exec_uncompress c s, rfl, s.driveDec_decOut c, uncompress_zeroBand,
    uncompress_toNat_eq_scaled, fun _ h4 => ?_, fun h8 h4 => ?_, uncompress_toNat_le c, ?_, ?_⟩
  · rw [implicit_or c.fraction_lt, uncompress_toNat_eq_shiftLeft h4]
  · rw [implicit_or c.fraction_lt, uncompress_toNat_eq_shiftRight h8 h4]
  · rintro rfl
    decide
  · rintro rfl
    decide

/-- Settles O4: the output is `2^e` plus the fraction without its low `4 - e` bits, so at one exponent it determines those
upper bits and is determined by them. -/
theorem uncompressRightShiftBand : Obligations.UncompressRightShiftBand := by
  intro c s h1 h3
  have h4 : c.exponent < 4 := Nat.lt_succ_of_le h3
  have h16 : 16 ≤ c.toNat := Code.le_exponent_iff.mp h1
  have hout := uncompress_toNat_eq_two_pow_add h1 h4
  refine ⟨s.driveDec c, uncompress c, exec_uncompress c s, s.driveDec_decOut c,
    uncompress_toNat_eq_shiftRight (by omega) h4, fun he => ?_, fun he => ?_, fun he => ?_, fun c' hexp => ?_⟩
  · simp [hout, he]
  · simp [hout, he]
  · simp [hout, he]
  · have hout' := uncompress_toNat_eq_two_pow_add (hexp ▸ h1) (hexp ▸ h4)
    rw [← BitVec.toNat_inj, hout, hout', hexp, Nat.add_left_cancel_iff]

/-- Settles O5: a shift left by `e - 4` is exact and clears the low `e - 4` bits, and the next code's significand is one
higher. -/
theorem uncompressLeftShiftBand : Obligations.UncompressLeftShiftBand := by
  intro c s h4
  have hout := uncompress_toNat_eq_shiftLeft h4
  refine ⟨s.driveDec c, uncompress c, exec_uncompress c s, s.driveDec_decOut c, hout, ?_, fun k hk => ?_,
    fun c' hnext hexp => ?_⟩
  · rw [hout, Nat.shiftLeft_eq, Nat.mul_div_cancel _ (Nat.two_pow_pos _)]
  · rw [hout, Nat.testBit_shiftLeft, decide_eq_false (Nat.not_le.mpr hk), Bool.false_and]
  · have hfrac : c'.fraction = c.fraction + 1 := by
      have hc := c.toNat_eq_fields
      have hc' := c'.toNat_eq_fields
      omega
    rw [hout, uncompress_toNat_eq_shiftLeft (hexp ▸ h4), hexp, hfrac, Nat.shiftLeft_eq, Nat.shiftLeft_eq,
      ← Nat.add_assoc, Nat.succ_mul]

/-- Settles O2: the lower half of exponent 0 is the zero band. -/
theorem uncompressZeroBand : Obligations.UncompressZeroBand :=
  ⟨Code.toNat_lt_eight_iff, fun c s h =>
    ⟨s.driveDec c, exec_uncompress c s, congrArg some (uncompress_zeroBand h)⟩⟩

/-- Settles O3: the significand of the upper half of exponent 0 is below 32, and rounding `f/16` half-up tells the two halves
apart. -/
theorem uncompressExponentZero : Obligations.UncompressExponentZero := by
  refine ⟨fun c s hlo hhi => ?_, fun c s h => ?_⟩
  · refine ⟨s.driveDec c, exec_uncompress c s, congrArg some (uncompress_eq_one hlo hhi), ?_⟩
    have hf := c.fraction_lt
    rw [implicit_or hf, Nat.shiftRight_eq_div_pow]
    omega
  · exact ⟨s.driveDec c, uncompress c, exec_uncompress c s, s.driveDec_decOut c, uncompress_toNat_of_exponent_zero h⟩

end Sys2Proof.Machine
end

section
/-! SUPPORT. The decoder's range, its order and its distinct outputs (rule R41). -/

namespace Sys2Proof.Machine

/-- The outputs of an exponent are below the next power of two. -/
theorem uncompress_toNat_lt_two_pow (c : Code) : (uncompress c).toNat < 2 ^ (c.exponent + 1) := by
  by_cases h8 : c.toNat < 8
  · rw [uncompress_zeroBand h8]
    exact Nat.two_pow_pos _
  · have hsig : 16 + c.fraction < 32 := Nat.add_lt_add_left c.fraction_lt 16
    rw [uncompress_toNat_eq_scaled (Nat.le_of_not_lt h8)]
    refine Nat.div_lt_of_lt_mul ?_
    calc (16 + c.fraction) * 2 ^ c.exponent
      _ < 32 * 2 ^ c.exponent := Nat.mul_lt_mul_of_pos_right hsig (Nat.two_pow_pos _)
      _ = 16 * 2 ^ (c.exponent + 1) := by ring

/-- From exponent 1 on the outputs of exponent `e` start at `2^e`. -/
theorem two_pow_le_uncompress_toNat {c : Code} (h : 1 ≤ c.exponent) : 2 ^ c.exponent ≤ (uncompress c).toNat := by
  have h16 : 16 ≤ c.toNat := Code.le_exponent_iff.mp h
  rw [uncompress_toNat_eq_scaled (by omega), Nat.le_div_iff_mul_le (by decide), Nat.mul_comm]
  exact Nat.mul_le_mul_right _ (Nat.le_add_right 16 _)

/-- Exponents have separate ranges of outputs, in their own order (rule R41 (b)). -/
theorem uncompress_toNat_lt_of_exponent_lt {c c' : Code} (h : c.exponent < c'.exponent) :
    (uncompress c).toNat < (uncompress c').toNat :=
  calc (uncompress c).toNat
    _ < 2 ^ (c.exponent + 1) := uncompress_toNat_lt_two_pow c
    _ ≤ 2 ^ c'.exponent := Nat.pow_le_pow_right (by decide) h
    _ ≤ (uncompress c').toNat := two_pow_le_uncompress_toNat (Nat.one_le_of_lt h)

/-- Within an exponent the significand rises with the code, and from one exponent to the next so does the range (rule R41
(b)). -/
theorem uncompress_toNat_mono {c c' : Code} (h : c.toNat ≤ c'.toNat) : (uncompress c).toNat ≤ (uncompress c').toNat := by
  have hexp : c.exponent ≤ c'.exponent := Nat.div_le_div_right h
  rcases Nat.lt_or_eq_of_le hexp with hlt | heq
  · exact Nat.le_of_lt (uncompress_toNat_lt_of_exponent_lt hlt)
  by_cases h8 : c.toNat < 8
  · rw [uncompress_zeroBand h8]
    exact Nat.zero_le _
  · have hge : 8 ≤ c.toNat := Nat.le_of_not_lt h8
    have hfrac : c.fraction ≤ c'.fraction := by
      have hc := c.toNat_eq_fields
      have hc' := c'.toNat_eq_fields
      omega
    rw [uncompress_toNat_eq_scaled hge, uncompress_toNat_eq_scaled (Nat.le_trans hge h), heq]
    exact Nat.div_le_div_right (Nat.mul_le_mul_right _ (Nat.add_le_add_left hfrac 16))

/-- The decoder reaches every number of the encoder's exact band (rule R41 (a)). -/
theorem exists_uncompress_of_le {v : Nat} (h : v ≤ 31) : ∃ c : Code, (uncompress c).toNat = v := by
  have hexact : ∀ n < 32, (uncompress (compress (BitVec.ofNat 16 n))).toNat = n := by decide
  exact ⟨_, hexact v (Nat.lt_succ_of_le h)⟩

/-- The decoder's outputs: below exponent 4 they are under 16, and from there on they are the left-shift values (rule R41
(a)). -/
theorem exists_uncompress_iff (v : Nat) : (∃ c : Code, (uncompress c).toNat = v) ↔
    v ≤ 31 ∨ ∃ e f, 4 ≤ e ∧ e ≤ 15 ∧ f ≤ 15 ∧ v = (16 + f) * 2 ^ (e - 4) := by
  constructor
  · rintro ⟨c, rfl⟩
    by_cases h4 : 4 ≤ c.exponent
    · exact .inr ⟨c.exponent, c.fraction, h4, Nat.le_of_lt_succ c.exponent_lt, Nat.le_of_lt_succ c.fraction_lt,
        (uncompress_toNat_eq_shiftLeft h4).trans (Nat.shiftLeft_eq _ _)⟩
    · have hpow : 2 ^ (c.exponent + 1) ≤ 2 ^ 4 := Nat.pow_le_pow_right (by decide) (Nat.lt_of_not_le h4)
      have hlt := uncompress_toNat_lt_two_pow c
      exact .inl (by omega)
  · rintro (h | ⟨e, f, h4, he, hf, rfl⟩)
    · exact exists_uncompress_of_le h
    · obtain ⟨c, rfl, rfl⟩ := Code.exists_of_fields he hf
      exact ⟨c, (uncompress_toNat_eq_shiftLeft h4).trans (Nat.shiftLeft_eq _ _)⟩

/-- Encoding an output gives the one canonical code that decodes to it (rules R32, R41 (c)). -/
theorem existsUnique_isCanonical_uncompress_eq (c : Code) :
    ∃! c' : Code, isCanonical c' = true ∧ uncompress c' = uncompress c := by
  refine ⟨compress (uncompress c), ⟨isCanonical_compress _, uncompress_compress_uncompress c⟩, ?_⟩
  rintro c' ⟨hcan, hout⟩
  rw [← hout, compress_uncompress hcan]

/-- Settles O6: each exponent has a range of outputs of its own, in which the significand orders them, and the encoder picks
the canonical code of each. -/
theorem decoderRangeMonotoneDistinct : Obligations.DecoderRangeMonotoneDistinct :=
  ⟨exists_uncompress_iff, uncompress_toNat_le, by decide, fun _ _ => uncompress_toNat_mono,
    fun _ _ => uncompress_toNat_lt_of_exponent_lt, existsUnique_isCanonical_uncompress_eq, length_filter_isCanonical⟩

end Sys2Proof.Machine
end

section
/-! SUPPORT. The exponent as the highest set bit (rule R44), by its bounds and by each circuit of the rule. -/

namespace Sys2Proof.Machine

/-- A shift that leaves 1 is by the exponent. -/
theorem msb_eq_of_shiftRight_eq_one {v e : Nat} (h : v >>> e = 1) : msb v = e := by
  rw [Nat.shiftRight_eq_div_pow, Nat.div_eq_iff (Nat.two_pow_pos e)] at h
  have hpos := Nat.two_pow_pos e
  refine msb_unique (by omega) ?_
  rw [Nat.pow_succ]
  omega

/-- The exponent's bounds as a shift that leaves 1. -/
theorem shiftRight_msb {v : Nat} (h : v ≠ 0) : v >>> msb v = 1 := by
  obtain ⟨hlo, hhi⟩ := msb_bounds h
  rw [Nat.shiftRight_eq_div_pow]
  refine Nat.div_eq_of_lt_le (by rwa [Nat.one_mul]) ?_
  rwa [Nat.pow_succ, Nat.mul_comm] at hhi

/-- The top bit of a number of `n + 1` bits. -/
theorem testBit_iff_of_lt {v n : Nat} (h : v < 2 ^ (n + 1)) : v.testBit n = true ↔ 2 ^ n ≤ v := by
  refine ⟨Nat.ge_two_pow_of_testBit, fun hge => ?_⟩
  have hone := msb_unique hge h ▸ shiftRight_msb (Nat.ne_zero_of_lt (Nat.lt_of_lt_of_le (Nat.two_pow_pos n) hge))
  simp [Nat.testBit, hone]

/-- One more shift is one more exponent. -/
theorem msb_shiftRight_one {v : Nat} (h : 2 ≤ v) : msb v = msb (v >>> 1) + 1 := by
  refine msb_eq_of_shiftRight_eq_one ?_
  rw [Nat.add_comm, Nat.shiftRight_add]
  exact shiftRight_msb (by rw [Nat.shiftRight_one]; omega)

/-- The source software's search finds the exponent (rule R44). -/
theorem msbSearch_eq_msb {n v : Nat} (hpos : 0 < v) (hlt : v < 2 ^ n) : msbSearch n v = msb v := by
  induction n generalizing v with
  | zero =>
    rw [Nat.pow_zero] at hlt
    omega
  | succ n ih =>
    rw [msbSearch]
    split
    next h => rw [h]; rfl
    next h =>
      have hhalf : v >>> 1 = v / 2 := Nat.shiftRight_one v
      rw [Nat.pow_succ] at hlt
      rw [ih (by omega) (by omega), ← msb_shiftRight_one (by omega)]

/-- The priority encoder finds the exponent (rule R44). -/
theorem msbPriority_eq_msb {n v : Nat} (hpos : 0 < v) (hlt : v < 2 ^ (n + 1)) : msbPriority v n = msb v := by
  induction n with
  | zero =>
    obtain rfl : v = 1 := by
      rw [Nat.zero_add, Nat.pow_one] at hlt
      omega
    rfl
  | succ n ih =>
    rw [msbPriority]
    split
    next h => exact (msb_unique ((testBit_iff_of_lt hlt).mp h) hlt).symm
    next h => exact ih (Nat.lt_of_not_le (mt (testBit_iff_of_lt hlt).mpr h))

/-- The leading zeros and the exponent count every bit but the highest set one (rule R44). -/
theorem leadingZeros_add_msb {n v : Nat} (hpos : 0 < v) (hlt : v < 2 ^ n) : leadingZeros v n + msb v + 1 = n := by
  induction n with
  | zero =>
    rw [Nat.pow_zero] at hlt
    omega
  | succ n ih =>
    rw [leadingZeros]
    split
    next h => rw [msb_unique ((testBit_iff_of_lt hlt).mp h) hlt, Nat.zero_add]
    next h =>
      have := ih (Nat.lt_of_not_le (mt (testBit_iff_of_lt hlt).mpr h))
      omega

/-- Settles O10: the exponent's bounds make it the shift that leaves 1, and each circuit stops at the highest bit that is
set. -/
theorem exponentIsHighestSetBit : Obligations.ExponentIsHighestSetBit := by
  intro m h2
  have hne : m.toNat ≠ 0 := Nat.ne_zero_of_lt h2
  have hpos : 0 < m.toNat := Nat.pos_of_ne_zero hne
  have hclz : clz16 m + msb m.toNat + 1 = 16 := leadingZeros_add_msb hpos m.isLt
  exact ⟨(msb_bounds hne).1, (msb_bounds hne).2, (Nat.le_log2 hne).mpr h2, by omega, shiftRight_msb hne,
    fun e he => Nat.le_of_eq (msb_eq_of_shiftRight_eq_one he).symm, msbSearch_eq_msb hpos m.isLt,
    msbPriority_eq_msb hpos m.isLt, by omega⟩

end Sys2Proof.Machine
end

section
/-! SUPPORT. The raw result in plain arithmetic: the exact band (rule R45), the rounding band with and without a carry (rules
R46, R47), and from which magnitude on it is at least a given code. -/

namespace Sys2Proof.Machine

/-- A magnitude has 16 bits, so its exponent is at most 15 (rule R44). -/
theorem msb_lt_sixteen {m : Magnitude} (h : 32 ≤ m.toNat) : msb m.toNat < 16 :=
  (Nat.log2_lt (Nat.ne_zero_of_lt h)).mpr m.isLt

/-- From exponent 5 on a magnitude is in the rounding band (rule R46). -/
theorem le_of_two_pow_le {m e : Nat} (he : 5 ≤ e) (hlo : 2 ^ e ≤ m) : 32 ≤ m :=
  Nat.le_trans (Nat.pow_le_pow_right (n := 2) (by decide) he) hlo

/-- The exact band ends at exponent 4 (rule R45). -/
theorem msb_le_four {m : Nat} (h : m ≤ 31) : msb m ≤ 4 := by
  by_cases hm : m = 0
  · rw [hm]
    decide
  · exact Nat.le_of_lt_succ ((Nat.log2_lt hm).mpr (Nat.lt_succ_of_le h))

theorem compressRaw_of_msb_le_four {m : Nat} (h2 : 2 ≤ m) (h : msb m ≤ 4) :
    compressRaw m = 16 * msb m + m * 2 ^ (4 - msb m) % 16 := by
  rw [compressRaw, if_neg (by omega), if_neg (by omega), ← compressExact_eq]
  exact if_pos (Nat.lt_succ_of_le h)

/-- The leading 1 of the exact band's significand stands at bit 4 (rule R45). -/
theorem exactSignificand_bounds {m : Nat} (h0 : m ≠ 0) (h : msb m ≤ 4) :
    16 ≤ m * 2 ^ (4 - msb m) ∧ m * 2 ^ (4 - msb m) ≤ 31 := by
  obtain ⟨hlo, hhi⟩ := msb_bounds h0
  have hpow : 2 ^ (4 - msb m) * 2 ^ msb m = 16 := Nat.pow_sub_mul_pow 2 h
  have hge : 2 ^ (4 - msb m) * 2 ^ msb m ≤ 2 ^ (4 - msb m) * m := Nat.mul_le_mul_left _ hlo
  have hlt : 2 ^ (4 - msb m) * m < 2 ^ (4 - msb m) * 2 ^ (msb m + 1) :=
    Nat.mul_lt_mul_of_pos_left hhi (Nat.two_pow_pos _)
  rw [Nat.pow_succ, ← Nat.mul_assoc, hpow] at hlt
  rw [hpow] at hge
  rw [Nat.mul_comm]
  omega

/-- Below the rounding band every code is below the band's first one. -/
theorem compressRaw_lt {m : Nat} (h : m ≤ 31) : compressRaw m < 80 := by
  by_cases h2 : 2 ≤ m
  · have he := msb_le_four h
    rw [compressRaw_of_msb_le_four h2 he]
    omega
  · obtain rfl | rfl : m = 0 ∨ m = 1 := by omega
    · decide
    · decide

/-- The window's integer bit is set (rule R46). -/
theorem le_window {m : Nat} (h : 32 ≤ m) : 32 ≤ window m (msb m) := by
  have hlo := (msb_bounds (Nat.ne_zero_of_lt h)).1
  rw [window_eq, Nat.le_div_iff_mul_le (Nat.two_pow_pos _), Nat.mul_comm, Nat.pow_sub_mul_pow 2 (five_le_msb h)]
  exact hlo

/-- The guard bit's weight is half a grid step (rule R46). -/
theorem gridStep_exponent {m : Nat} (h : 32 ≤ m) : msb m - 4 = msb m - 5 + 1 := by
  have he := five_le_msb h
  omega

theorem gridStep_eq {m : Nat} (h : 32 ≤ m) : 2 ^ (msb m - 4) = 2 ^ (msb m - 5) * 2 := by
  rw [gridStep_exponent h, Nat.pow_succ]

/-- The rounded window has at most seven bits (rule R52). -/
theorem roundWindow_window_le {m : Nat} (h : 32 ≤ m) : roundWindow (window m (msb m)) ≤ 65 :=
  Nat.le_trans (roundWindow_le _) (Nat.add_le_add_right (Nat.le_of_lt_succ (window_lt h)) 2)

/-- The rounded window without its guard bit is the half of the window, rounded up (rule R46). -/
theorem roundWindow_div_two (w : Nat) : roundWindow w / 2 = (w + 1) / 2 := by
  rw [roundWindow_eq]
  split <;> omega

/-- The rounding band: the rounded significand, 16 to 32, counts on from the first code of the exponent, and with 32 reaches
the first code of the next (rules R46, R47). -/
theorem compressRaw_add_sixteen {m : Nat} (h : 32 ≤ m) :
    compressRaw m + 16 = 16 * msb m + (window m (msb m) + 1) / 2 := by
  have hlo := le_window h
  have hhi := window_lt h
  have hhalf := roundWindow_div_two (window m (msb m))
  rw [compressRaw_of_le h, compressRounding_eq _ _ (by omega)]
  split <;> omega

/-- The least magnitude of each code from 0x51 on, for the raw result: half a grid step below the code's own magnitude. With
`f = 16` it is that of the first code of the next exponent, from which on the window carries (rules R47, R53). -/
theorem le_compressRaw_iff {m k f : Nat} (h1 : 1 ≤ f) (h16 : f ≤ 16) :
    16 * (k + 5) + f ≤ compressRaw m ↔ (31 + 2 * f) * 2 ^ k ≤ m := by
  have hfirst : 32 * 2 ^ k ≤ (31 + 2 * f) * 2 ^ k := Nat.mul_le_mul_right _ (by omega)
  have hlast : (31 + 2 * f) * 2 ^ k ≤ 64 * 2 ^ k := Nat.mul_le_mul_right _ (by omega)
  by_cases h : 32 ≤ m
  · have hraw := compressRaw_add_sixteen h
    have hwlo := le_window h
    have hwhi := window_lt h
    obtain ⟨hlo, hhi⟩ := msb_bounds (Nat.ne_zero_of_lt h)
    rcases Nat.lt_trichotomy (msb m) (k + 5) with hlt | heq | hgt
    · have hnext : 2 ^ (msb m + 1) ≤ 32 * 2 ^ k := by
        rw [Nat.mul_comm, show 2 ^ k * 32 = 2 ^ (k + 5) from (Nat.pow_add 2 k 5).symm]
        exact Nat.pow_le_pow_right (by decide) hlt
      exact iff_of_false (by omega) (by omega)
    · rw [window_eq, heq, Nat.add_sub_cancel] at hraw
      rw [← Nat.le_div_iff_mul_le (Nat.two_pow_pos k)]
      omega
    · have hnext : 64 * 2 ^ k ≤ 2 ^ msb m := by
        rw [Nat.mul_comm, show 2 ^ k * 64 = 2 ^ (k + 6) from (Nat.pow_add 2 k 6).symm]
        exact Nat.pow_le_pow_right (by decide) hgt
      exact iff_of_true (by omega) (by omega)
  · have hraw := compressRaw_lt (m := m) (by omega)
    have hpos := Nat.two_pow_pos k
    exact iff_of_false (by omega) (by omega)

/-- A code from 0x51 on is 1 to 16 grid steps past the first one of an exponent from 5 on. -/
theorem exists_steps_of_lt {n : Nat} (h : 80 < n) : ∃ k f, 1 ≤ f ∧ f ≤ 16 ∧ n = 16 * (k + 5) + f :=
  ⟨(n - 81) / 16, (n - 81) % 16 + 1, by omega, by omega, by omega⟩

/-- The raw result stays in order within the exact band, in the rounding band, and from one to the other (rule R51). -/
theorem compressRaw_mono {a b : Nat} (h : a ≤ b) : compressRaw a ≤ compressRaw b := by
  by_cases hb : 32 ≤ b
  · have hfirst := le_compressRaw hb
    have he := five_le_msb hb
    by_cases hraw : compressRaw a ≤ 80
    · omega
    · obtain ⟨k, f, h1, h16, hsteps⟩ := exists_steps_of_lt (Nat.lt_of_not_le hraw)
      have hlo := (le_compressRaw_iff h1 h16).mp (Nat.le_of_eq hsteps.symm)
      rw [hsteps]
      exact (le_compressRaw_iff h1 h16).mpr (Nat.le_trans hlo h)
  · have hexact : ∀ n < 32, ∀ l < n + 1, compressRaw l ≤ compressRaw n := by decide
    exact hexact b (Nat.lt_of_not_le hb) a (Nat.lt_succ_of_le h)

/-- The raw result needs nine bits, and has them from 0xFC00 on (rules R48, R52). -/
theorem compressRaw_le (m : Magnitude) : compressRaw m.toNat ≤ 0x100 := by
  have hm : m.toNat < 2 ^ 16 := m.isLt
  have htop := le_compressRaw_iff (m := m.toNat) (k := 11) (f := 1) (by decide) (by decide)
  omega

theorem compressRaw_eq_iff (m : Magnitude) : compressRaw m.toNat = 0x100 ↔ 0xFC00 ≤ m.toNat := by
  have hle := compressRaw_le m
  have htop := le_compressRaw_iff (m := m.toNat) (k := 10) (f := 16) (by decide) (by decide)
  omega

/-- Below the top band the clamp is not needed (rule R48). -/
theorem compressRaw_le_of_lt {m : Magnitude} (h : m.toNat < 0xFC00) : compressRaw m.toNat ≤ 0xFF := by
  have hle := compressRaw_le m
  have hne := mt (compressRaw_eq_iff m).mp (Nat.not_le.mpr h)
  omega

theorem compress_toNat_of_lt {m : Magnitude} (h : m.toNat < 0xFC00) : (compress m).toNat = compressRaw m.toNat :=
  (compress_toNat m).trans (Nat.min_eq_right (compressRaw_le_of_lt h))

/-- The encoder gives 0xFF from half a grid step below 0xF800 on, which takes in the top band (rule R48). -/
theorem compress_eq_iff_of_top (m : Magnitude) : compress m = 0xFF ↔ 0xF400 ≤ m.toNat := by
  have htop := le_compressRaw_iff (m := m.toNat) (k := 10) (f := 15) (by decide) (by decide)
  rw [← BitVec.toNat_inj, compress_toNat, show (0xFF : Code).toNat = 0xFF from rfl]
  omega

end Sys2Proof.Machine
end

section
/-! SUPPORT. What `COMPRESS` answers, in plain arithmetic (rules R42, R43), and its rounding band as a rounded division. -/

namespace Sys2Proof.Machine

/-- Settles O7: the operand is all that changes, the raw result is that of the exponent's band, and the output is its
clamp. -/
theorem compressResult : Obligations.CompressResult := by
  intro m s
  refine ⟨s.driveEnc m, compress m, exec_compress m s, rfl, s.driveEnc_encOut m, fun h => ?_, fun h => ?_, ?_, ?_, ?_⟩
  · obtain rfl := BitVec.eq_of_toNat_eq (y := 0) h
    decide
  · obtain rfl := BitVec.eq_of_toNat_eq (y := 1) h
    decide
  · intro e h2 hlo hhi he
    obtain rfl := msb_unique hlo hhi
    rw [compress_toNat, compressRaw_of_msb_le_four h2 (Nat.le_of_lt_succ he)]
    omega
  · rintro e w w' hlo hhi he rfl rfl
    have h32 := le_of_two_pow_le he hlo
    obtain rfl := msb_unique hlo hhi
    have hlt : roundWindow (window m.toNat (msb m.toNat)) < 128 :=
      Nat.lt_of_le_of_lt (roundWindow_window_le h32) (by decide)
    rw [compress_toNat, compressRaw_of_le h32, compressRounding_eq _ _ hlt, roundWindow_eq, window_eq,
      Nat.div_div_eq_div_mul]
  · rintro rfl
    decide

/-- Half of the window, rounded up, is the magnitude divided by the grid step and rounded half up. -/
theorem window_succ_div_two {m : Nat} (h : 32 ≤ m) :
    (window m (msb m) + 1) / 2 = (m + 2 ^ (msb m - 5)) / 2 ^ (msb m - 4) := by
  rw [window_eq, ← Nat.add_div_right _ (Nat.two_pow_pos _), Nat.div_div_eq_div_mul, gridStep_eq h]

/-- Settles O8: the code counts the grid steps of the rounded magnitude on from the first code of its exponent, and a step
past the exponent's last code is the next exponent's first. -/
theorem compressIsRoundedDivision : Obligations.CompressIsRoundedDivision := by
  intro m s e he hlo hhi
  obtain rfl := msb_unique hlo hhi
  have h32 := le_of_two_pow_le he hlo
  have hraw := compressRaw_add_sixteen h32
  have hwindow := le_window h32
  refine ⟨s.driveEnc m, compress m, exec_compress m s, s.driveEnc_encOut m, ?_⟩
  rw [compress_toNat, ← window_succ_div_two h32]
  omega

/-- Settles O9: both are fixed codes; the decoder gives 0 on every code below 0x08, so none of them decodes to 1. -/
theorem compressSpecialCases : Obligations.CompressSpecialCases := by
  refine ⟨fun s => ⟨s.driveEnc 0, exec_compress 0 s, s.driveEnc_encOut 0⟩,
    fun s => ⟨s.driveEnc 1, exec_compress 1 s, s.driveEnc_encOut 1⟩, by decide, by decide, fun c hone => ?_, by decide⟩
  refine Nat.le_of_not_lt fun hlt => ?_
  rw [uncompress_zeroBand hlt] at hone
  exact absurd hone (by decide)

end Sys2Proof.Machine
end

section
/-! SUPPORT. The magnitudes that are encoded exactly (rules R43, R45), and which of their codes the encoder takes (rule
R49). -/

namespace Sys2Proof

/-- A code's fields, from its number. -/
theorem Code.fields_of_toNat_eq {c : Code} {e f : Nat} (h : c.toNat = 16 * e + f) (hf : f < 16) :
    c.exponent = e ∧ c.fraction = f := by
  rw [Code.exponent, Code.fraction]
  omega

end Sys2Proof

namespace Sys2Proof.Machine

/-- The code of the exact band (rule R45). -/
theorem compress_exact_fields {m : Magnitude} (h2 : 2 ≤ m.toNat) (h : m.toNat ≤ 31) :
    (compress m).exponent = msb m.toNat ∧ (compress m).fraction + 16 = m.toNat * 2 ^ (4 - msb m.toNat) := by
  have he := msb_le_four h
  have hsig := exactSignificand_bounds (Nat.ne_zero_of_lt h2) he
  have hcode : (compress m).toNat = 16 * msb m.toNat + (m.toNat * 2 ^ (4 - msb m.toNat) - 16) := by
    rw [compress_toNat, compressRaw_of_msb_le_four h2 he]
    omega
  obtain ⟨hexp, hfrac⟩ := Code.fields_of_toNat_eq hcode (by omega)
  exact ⟨hexp, by omega⟩

/-- The decoder scales the significand of the exact band back (rules R43, R45). -/
theorem uncompress_compress_of_le {m : Magnitude} (h : m.toNat ≤ 31) : uncompress (compress m) = m := by
  by_cases h2 : 2 ≤ m.toNat
  · obtain ⟨hexp, hfrac⟩ := compress_exact_fields h2 h
    have he := msb_le_four h
    have h1 : 1 ≤ msb m.toNat := (Nat.le_log2 (Nat.ne_zero_of_lt h2)).mpr h2
    have h16 : 16 * 1 ≤ (compress m).toNat := Code.le_exponent_iff.mp (hexp ▸ h1)
    refine BitVec.eq_of_toNat_eq ?_
    rw [uncompress_toNat_eq_scaled (by omega), Nat.add_comm, hfrac, hexp, Nat.mul_assoc, Nat.pow_sub_mul_pow 2 he]
    exact Nat.mul_div_cancel _ (by decide)
  · obtain h0 | h1 : m.toNat = 0 ∨ m.toNat = 1 := by omega
    · obtain rfl := BitVec.eq_of_toNat_eq (y := 0) h0
      decide
    · obtain rfl := BitVec.eq_of_toNat_eq (y := 1) h1
      decide

/-- Settles O11: the significand is the magnitude shifted until its leading 1 stands at bit 4, so that `4 - e` zeros stand
below, and the decoder shifts it back. -/
theorem compressExactBand : Obligations.CompressExactBand := by
  refine ⟨fun m s h2 h => ?_, fun m => uncompress_compress_of_le, by decide⟩
  have he := msb_le_four h
  have hne : m.toNat ≠ 0 := Nat.ne_zero_of_lt h2
  obtain ⟨hexp, hfrac⟩ := compress_exact_fields h2 h
  obtain ⟨hlo, hhi⟩ := exactSignificand_bounds hne he
  have hdvd : 2 ^ (4 - msb m.toNat) ∣ (compress m).fraction := by
    have h16 : 2 ^ (4 - msb m.toNat) ∣ 16 := Nat.pow_dvd_pow 2 (Nat.sub_le 4 _)
    rw [← Nat.dvd_add_left h16, hfrac]
    exact Nat.dvd_mul_left _ _
  rw [Nat.shiftLeft_eq]
  exact ⟨s.driveEnc m, compress m, exec_compress m s, s.driveEnc_encOut m, (Nat.le_log2 hne).mpr h2, he, hlo, hhi, hexp,
    hfrac, Nat.mod_eq_zero_of_dvd hdvd, isCanonical_compress m⟩

/-- The encoder gives a decoder output the lowest code that decodes to it (rule R49). -/
theorem compress_uncompress_le (c : Code) : (compress (uncompress c)).toNat ≤ c.toNat := by
  rw [← uncompress_canonicalBelow, compress_uncompress (isCanonical_canonicalBelow c)]
  exact canonicalBelow_le c

end Sys2Proof.Machine
end

section
/-! SUPPORT. The rounding band: the window and its guard bit (rule R46), the carry (rule R47), and the magnitude of the code
the encoder rounds to. -/

namespace Sys2Proof.Machine

/-- Bit `k` of a number is the top bit of its low `k + 1` bits. -/
theorem div_two_pow_mod_two_iff (m k : Nat) : m / 2 ^ k % 2 = 1 ↔ 2 ^ k ≤ m % 2 ^ (k + 1) := by
  have hlt : m % 2 ^ k < 2 ^ k := Nat.mod_lt _ (Nat.two_pow_pos k)
  rw [Nat.mod_pow_succ]
  rcases Nat.mod_two_eq_zero_or_one (m / 2 ^ k) with h | h
  · rw [h, Nat.mul_zero]
    omega
  · rw [h, Nat.mul_one]
    omega

/-- The guard bit compares the discarded part with half a grid step (rule R46). -/
theorem guardSet_window_iff {m : Nat} (h : 32 ≤ m) :
    guardSet (window m (msb m)) = true ↔ 2 ^ (msb m - 5) ≤ m % 2 ^ (msb m - 4) := by
  rw [guardSet_iff, window_eq, gridStep_exponent h, div_two_pow_mod_two_iff]

/-- The kept significand rises by one with the guard bit (rule R46). -/
theorem roundWindow_window_div_two {m : Nat} (h : 32 ≤ m) :
    roundWindow (window m (msb m)) / 2 =
      m / 2 ^ (msb m - 4) + (if 2 ^ (msb m - 5) ≤ m % 2 ^ (msb m - 4) then 1 else 0) := by
  have hkept : m / 2 ^ (msb m - 4) = window m (msb m) / 2 := by
    rw [window_eq, gridStep_eq h, Nat.div_div_eq_div_mul]
  have hguard := (guardSet_iff (window m (msb m))).symm.trans (guardSet_window_iff h)
  rw [roundWindow_div_two, hkept, ← if_congr hguard rfl rfl]
  split <;> omega

/-- Only a window of six ones carries (rule R47). -/
theorem carrySet_roundWindow_iff {w : Nat} (h : w < 64) : carrySet (roundWindow w) = true ↔ w = 63 := by
  have hle := roundWindow_le w
  rw [carrySet_iff (by omega), roundWindow_eq]
  split <;> omega

/-- Without a carry the rounded significand still has its leading 1 at bit 4 (rule R46). -/
theorem compress_rounded_fields {m : Magnitude} (h : 32 ≤ m.toNat) (hw : window m.toNat (msb m.toNat) ≠ 63) :
    (compress m).exponent = msb m.toNat ∧
      (compress m).fraction + 16 = roundWindow (window m.toNat (msb m.toNat)) / 2 := by
  have hraw := compressRaw_add_sixteen h
  have hlo := le_window h
  have hhi := window_lt h
  have he := msb_lt_sixteen h
  have hcode : (compress m).toNat = 16 * msb m.toNat + ((window m.toNat (msb m.toNat) + 1) / 2 - 16) := by
    rw [compress_toNat]
    omega
  obtain ⟨hexp, hfrac⟩ := Code.fields_of_toNat_eq hcode (by omega)
  rw [roundWindow_div_two]
  exact ⟨hexp, by omega⟩

/-- The rounding band reads nothing below the guard bit (rule R46). -/
theorem compress_congr {m m' : Magnitude} (h : 32 ≤ m.toNat) (h' : 32 ≤ m'.toNat) (he : msb m.toNat = msb m'.toNat)
    (hw : window m.toNat (msb m.toNat) = window m'.toNat (msb m'.toNat)) : compress m = compress m' := by
  have hraw := compressRaw_add_sixteen h
  have hraw' := compressRaw_add_sixteen h'
  refine BitVec.eq_of_toNat_eq ?_
  rw [compress_toNat, compress_toNat]
  omega

/-- Settles O12: the window is a shift of the magnitude, its guard bit compares the discarded part with half a grid step, and
the code is read from the exponent and the rounded window alone. -/
theorem compressRoundingBand : Obligations.CompressRoundingBand := by
  refine ⟨fun m h => ⟨five_le_msb h, le_window h, Nat.le_of_lt_succ (window_lt h), fun k _ => Nat.testBit_shiftRight _,
    guardSet_window_iff h, roundWindow_window_div_two h⟩, fun m s h hcarry => ?_, fun m m' h h' he hw => ?_,
    by decide, by decide, by decide⟩
  · have hw : window m.toNat (msb m.toNat) ≠ 63 := fun hw => by
      rw [(carrySet_roundWindow_iff (window_lt h)).mpr hw] at hcarry
      cases hcarry
    exact ⟨s.driveEnc m, compress m, exec_compress m s, s.driveEnc_encOut m, compress_rounded_fields h hw⟩
  · refine compress_congr h h' he ?_
    rwa [window_eq, window_eq, ← he]

/-- The decoder on the code `f` grid steps past the first one of an exponent; 16 steps reach the next exponent's first code,
whose step is twice as large. -/
theorem uncompress_toNat_of_toNat_eq {c : Code} {k f : Nat} (h : c.toNat = 16 * (k + 5) + f) (hf : f ≤ 16) :
    (uncompress c).toNat = (16 + f) * 2 ^ (k + 1) := by
  rcases Nat.lt_or_eq_of_le hf with hlt | rfl
  · obtain ⟨hexp, hfrac⟩ := Code.fields_of_toNat_eq h hlt
    rw [uncompress_toNat_of_five_le (by omega), hexp, hfrac]
    rfl
  · obtain ⟨hexp, hfrac⟩ := Code.fields_of_toNat_eq (e := k + 6) (f := 0) (by omega) (by decide)
    rw [uncompress_toNat_of_five_le (by omega), hexp, hfrac]
    rw [show k + 6 - 4 = k + 1 + 1 from rfl, Nat.pow_succ]
    omega

end Sys2Proof.Machine
end

section
/-! SUPPORT. The carry and the top band (rules R47, R48), the widths of the internal nodes (rule R52), and TOP_CARRY
(decision D11). -/

namespace Sys2Proof.Machine

/-- The window is six ones from 63 guard-bit weights on (rule R47). -/
theorem window_eq_iff {m : Nat} (h : 32 ≤ m) : window m (msb m) = 63 ↔ 63 * 2 ^ (msb m - 5) ≤ m := by
  have hlt := window_lt h
  rw [← Nat.le_div_iff_mul_le (Nat.two_pow_pos _), ← window_eq]
  omega

/-- A carry below exponent 15 gives the first code of the next exponent (rule R47). -/
theorem compress_toNat_of_carry {m : Magnitude} (h : 32 ≤ m.toNat) (he : msb m.toNat ≤ 14)
    (hw : window m.toNat (msb m.toNat) = 63) : (compress m).toNat = 16 * (msb m.toNat + 1) := by
  have hraw := compressRaw_add_sixteen h
  rw [compress_toNat]
  omega

/-- Settles O13: of the windows 32 to 63 only 63 rounds to more than six bits, and 65 loses its guard bit in the shift that
renormalises it. -/
theorem compressCarry : Obligations.CompressCarry := by
  refine ⟨fun m h => ⟨carrySet_roundWindow_iff (window_lt h), window_eq_iff h⟩, rfl, fun e => rfl, rfl,
    fun m s h he hw => ?_, fun e he => ?_, by decide⟩
  · have hcode := compress_toNat_of_carry h he hw
    obtain ⟨hexp, hfrac⟩ := Code.fields_of_toNat_eq (e := msb m.toNat + 1) (f := 0) hcode (by decide)
    refine ⟨s.driveEnc m, compress m, exec_compress m s, s.driveEnc_encOut m, hexp, hfrac, ?_⟩
    have h5 := five_le_msb h
    rw [uncompress_toNat_eq_shiftLeft (by omega), hexp, hfrac, Nat.shiftLeft_eq,
      ← Nat.pow_sub_mul_pow 2 (show 4 ≤ msb m.toNat + 1 by omega), Nat.mul_comm]
  · have hpow : 2 ^ (e + 1) = 2 ^ (e - 5) * 64 := by
      rw [show e + 1 = e - 5 + 6 by omega, Nat.pow_add]
    omega

/-- The top band rounds past the last code, and is clamped to it (rule R48). -/
theorem compress_of_top {m : Magnitude} (h : 0xF400 ≤ m.toNat) : compress m = 0xFF := (compress_eq_iff_of_top m).mpr h

/-- No code but 0xFF decodes to within the near-inverse bound of 0xFFFF (rule R48). -/
theorem eq_of_near_last {c : Code} (h : (((uncompress c).toNat : Int) - 0xFFFF).natAbs ≤ 2 ^ (c.exponent - 4)) :
    c = 0xFF := by
  have hfields := c.toNat_eq_fields
  have hf := c.fraction_lt
  have he := c.exponent_lt
  have hexp : c.exponent = 15 := by
    by_contra hne
    have hout := uncompress_toNat_lt_two_pow c
    have hpow : 2 ^ (c.exponent + 1) ≤ 2 ^ 15 := Nat.pow_le_pow_right (by decide) (by omega)
    have hbound : 2 ^ (c.exponent - 4) ≤ 2 ^ 10 := Nat.pow_le_pow_right (by decide) (by omega)
    omega
  rw [uncompress_toNat_of_five_le (by omega), hexp] at h
  exact BitVec.eq_of_toNat_eq (show c.toNat = 0xFF by omega)

/-- Settles O14: from 0xF400 on the result is 0xFF or, from 0xFC00 on, the clamped 0x100; and 0xFFFF alone leaves no other
code within the bound. -/
theorem compressTopBand : Obligations.CompressTopBand := by
  refine ⟨fun m s h => ⟨(compressRaw_eq_iff m).mpr h, ?_, s.driveEnc m, exec_compress m s, ?_⟩,
    fun m s h _ => ⟨s.driveEnc m, exec_compress m s, congrArg some (compress_of_top h)⟩, fun _ => rfl,
    by decide, by decide, fun c h => eq_of_near_last (h 0xFFFF (by decide))⟩
  · have hm : m.toNat < 2 ^ 16 := m.isLt
    omega
  · exact congrArg some (compress_of_top (Nat.le_trans (by decide) h))

/-- A carry raises the exponent by one (rule R47). -/
theorem renormalise_exponent_le (e w : Nat) : (renormalise e w).1 ≤ e + 1 := by
  rw [renormalise]
  split
  · exact Nat.le_refl _
  · exact Nat.le_succ e

/-- Settles O18: each node's bound is that of its band, and the raw result reaches 0x100 where the last window carries. -/
theorem internalWidths : Obligations.InternalWidths := by
  refine ⟨fun m h2 h => ?_, fun m h => ⟨Nat.le_of_lt_succ (window_lt h), roundWindow_window_le h, ?_⟩, compressRaw_le,
    compressRaw_eq_iff⟩
  · rw [Nat.shiftLeft_eq]
    exact (exactSignificand_bounds (Nat.ne_zero_of_lt h2) (msb_le_four h)).2
  · exact Nat.le_trans (renormalise_exponent_le _ _) (msb_lt_sixteen h)

/-- Settles O21: a result of eight bits is the same under either narrowing, and 0x100 is 0x00 without its ninth bit. -/
theorem topCarryOnlyInTopBand : Obligations.TopCarryOnlyInTopBand := by
  refine ⟨fun m h => ?_, fun m h => ⟨?_, compress_of_top (Nat.le_trans (by decide) h), rfl⟩⟩
  · have hraw := compressRaw_le_of_lt h
    rw [compress, compressWith, compressWith, narrow_of_le hraw, narrow_of_le hraw]
  · rw [compressWith, (compressRaw_eq_iff m).mpr h]
    rfl

end Sys2Proof.Machine
end

section
/-! SUPPORT. Decoding an encoded magnitude: the tie-breaking policy (rule R49) and the near-inverse bound (rule R50). -/

namespace Sys2Proof.Machine

/-- Below the top band an encoded magnitude decodes to the nearest grid point of its exponent, the higher one on a tie
(rule R46). -/
theorem uncompress_compress_toNat {m : Magnitude} (h : 32 ≤ m.toNat) (htop : m.toNat < 0xFC00) :
    (uncompress (compress m)).toNat =
      (m.toNat + 2 ^ (msb m.toNat - 5)) / 2 ^ (msb m.toNat - 4) * 2 ^ (msb m.toNat - 4) := by
  have hraw := compressRaw_add_sixteen h
  have hlo := le_window h
  have hhi := window_lt h
  have he := five_le_msb h
  have hcode : (compress m).toNat = 16 * (msb m.toNat - 5 + 5) + ((window m.toNat (msb m.toNat) + 1) / 2 - 16) := by
    rw [compress_toNat_of_lt htop]
    omega
  rw [uncompress_toNat_of_toNat_eq hcode (by omega), ← window_succ_div_two h, gridStep_exponent h,
    Nat.add_sub_cancel' (by omega)]

/-- Settles O15: up to 31 the canonical code is the lowest of those that decode alike; above, a tie plus half a grid step is
a grid point. -/
theorem tieBreakingPolicy : Obligations.TieBreakingPolicy := by
  refine ⟨fun m s h => ?_, fun m s h htop htie => ?_⟩
  · refine ⟨s.driveEnc m, compress m, exec_compress m s, s.driveEnc_encOut m, uncompress_compress_of_le h, ?_⟩
    rintro c rfl
    exact compress_uncompress_le c
  · refine ⟨s.driveEnc m, compress m, exec_compress m s, s.driveEnc_encOut m, ?_⟩
    rw [uncompress_compress_toNat h htop]
    refine Nat.div_mul_cancel (Nat.dvd_of_mod_eq_zero ?_)
    rw [← Nat.mod_add_mod, htie, ← Nat.mul_two, ← gridStep_eq h, Nat.mod_self]

/-- The error of the rounding band is at most half a grid step (rule R50). -/
theorem error_le_of_lt {m : Magnitude} (h : 32 ≤ m.toNat) (htop : m.toNat < 0xFC00) :
    (((uncompress (compress m)).toNat : Int) - m.toNat).natAbs ≤ 2 ^ (msb m.toNat - 5) := by
  have hstep := gridStep_eq h
  have hsplit := Nat.div_add_mod' (m.toNat + 2 ^ (msb m.toNat - 5)) (2 ^ (msb m.toNat - 4))
  have hmod := Nat.mod_lt (m.toNat + 2 ^ (msb m.toNat - 5)) (Nat.two_pow_pos (msb m.toNat - 4))
  rw [← uncompress_compress_toNat h htop] at hsplit
  omega

/-- The error of the top band is that of 0xF800 (rules R48, R50). -/
theorem error_le_of_top {m : Magnitude} (h : 0xFC00 ≤ m.toNat) :
    (((uncompress (compress m)).toNat : Int) - m.toNat).natAbs ≤ 2047 := by
  have hm : m.toNat < 2 ^ 16 := m.isLt
  rw [compress_of_top (Nat.le_trans (by decide) h), show (uncompress 0xFF).toNat = 0xF800 by decide]
  omega

/-- In the rounding band a code's exponent is not below its magnitude's. -/
theorem msb_le_exponent_compress {m : Magnitude} (h : 32 ≤ m.toNat) : msb m.toNat ≤ (compress m).exponent := by
  have hraw := le_compressRaw h
  have he := msb_lt_sixteen h
  rw [Code.le_exponent_iff, compress_toNat]
  omega

/-- The near-inverse bound over every magnitude (rule R50). -/
theorem error_le (m : Magnitude) :
    (((uncompress (compress m)).toNat : Int) - m.toNat).natAbs ≤ 2 ^ ((compress m).exponent - 4) := by
  by_cases h : 32 ≤ m.toNat
  · by_cases htop : m.toNat < 0xFC00
    · have hexp := msb_le_exponent_compress h
      exact Nat.le_trans (error_le_of_lt h htop) (Nat.pow_le_pow_right (by decide) (by omega))
    · have herr := error_le_of_top (Nat.le_of_not_lt htop)
      rw [compress_of_top (by omega)] at herr ⊢
      exact Nat.le_trans herr (by decide)
  · rw [uncompress_compress_of_le (by omega), Int.sub_self]
    exact Nat.zero_le _

/-- Settles O16: no error up to 31, half a grid step of the magnitude's exponent up to the top band, and there the distance
to 0xF800; each is within a step of the code's exponent. -/
theorem nearInverse : Obligations.NearInverse :=
  ⟨error_le, fun _ => uncompress_compress_of_le, fun _ h htop => error_le_of_lt h (Nat.lt_succ_of_le htop),
    fun _ => error_le_of_top, by decide⟩

end Sys2Proof.Machine
end

section
/-! SUPPORT. The encoder in order (rule R51), and the interval table as its second definition (rule R53). -/

namespace Sys2Proof.Machine

theorem compress_toNat_mono {a b : Magnitude} (h : a.toNat ≤ b.toNat) : (compress a).toNat ≤ (compress b).toNat := by
  have hraw := compressRaw_mono h
  rw [compress_toNat, compress_toNat]
  exact Nat.le_min_of_le_of_le (Nat.min_le_left _ _) (Nat.le_trans (Nat.min_le_right _ _) hraw)

/-- Settles O17: the raw result is in order, and the clamp keeps order. -/
theorem compressMonotone : Obligations.CompressMonotone := fun _ _ h => compress_toNat_mono (Nat.le_of_lt h)

/-- Up to 0x50 an interval is one magnitude. -/
theorem interval_of_le {c : Code} (h : c.toNat ≤ 0x50) :
    intervalLo c = (uncompress c).toNat ∧ intervalHi c = (uncompress c).toNat := by
  rw [intervalLo, intervalHi]
  exact ⟨if_pos h, if_pos h⟩

/-- The lower end of an interval, from the code's place past the first one of an exponent. With `f = 16` it is the first code
of the next exponent, and half a grid step below it is measured on the finer grid under it (rule R53). -/
theorem intervalLo_eq {c : Code} {k f : Nat} (h : c.toNat = 16 * (k + 5) + f) (h1 : 1 ≤ f) (h16 : f ≤ 16) :
    intervalLo c = (31 + 2 * f) * 2 ^ k := by
  have hout := uncompress_toNat_of_toNat_eq h h16
  have hscale : (16 + f) * 2 ^ (k + 1) = (31 + 2 * f) * 2 ^ k + 2 ^ k := by ring
  have hfields := c.toNat_eq_fields
  have hf := c.fraction_lt
  rw [intervalLo, if_neg (by omega)]
  split
  next hlast =>
    obtain ⟨rfl, rfl⟩ : k = 10 ∧ f = 15 := by omega
    rfl
  next =>
    rw [hout, hscale]
    split
    next h0 =>
      have hexp : c.exponent - 6 = k := by omega
      rw [hexp, Nat.add_sub_cancel]
    next h0 =>
      have hexp : c.exponent - 5 = k := by omega
      rw [hexp, Nat.add_sub_cancel]

/-- From 0x51 on a code's interval starts where the encoder reaches the code (rule R53). -/
theorem le_compress_iff {c : Code} (h : 0x50 < c.toNat) (m : Magnitude) :
    c.toNat ≤ (compress m).toNat ↔ intervalLo c ≤ m.toNat := by
  obtain ⟨k, f, h1, h16, hsteps⟩ := exists_steps_of_lt h
  have hc : c.toNat ≤ 0xFF := Nat.le_of_lt_succ c.isLt
  rw [intervalLo_eq hsteps h1 h16, ← le_compressRaw_iff h1 h16, ← hsteps, compress_toNat]
  omega

/-- From 0x50 on an interval ends half a grid step above the code's magnitude (rule R53). -/
theorem intervalHi_eq {c : Code} (h : 0x50 ≤ c.toNat) (hlast : c.toNat ≠ 0xFF) :
    intervalHi c + 1 = (uncompress c).toNat + 2 ^ (c.exponent - 5) := by
  rw [intervalHi, if_neg hlast]
  split
  next hle =>
    have hexp : c.exponent - 5 = 0 := by
      rw [Code.exponent]
      omega
    rw [hexp, Nat.pow_zero]
  next => exact Nat.sub_add_cancel (Nat.le_add_left_of_le (Nat.two_pow_pos _))

/-- From 0x50 on an interval ends just before the next code's starts (rule R53). -/
theorem intervalHi_add_one {c c' : Code} (h : 0x50 ≤ c.toNat) (hnext : c'.toNat = c.toNat + 1) :
    intervalHi c + 1 = intervalLo c' := by
  have h5 : 5 ≤ c.exponent := Code.le_exponent_iff.mpr h
  have hfields := c.toNat_eq_fields
  have hf := c.fraction_lt
  have hlast : c.toNat ≠ 0xFF := by
    have := c'.isLt
    omega
  have hcode : c.toNat = 16 * (c.exponent - 5 + 5) + c.fraction := by omega
  rw [intervalHi_eq h hlast, uncompress_toNat_of_toNat_eq hcode (Nat.le_of_lt hf),
    intervalLo_eq (k := c.exponent - 5) (f := c.fraction + 1) (by omega) (Nat.le_add_left 1 _) hf]
  ring

theorem intervalHi_le (c : Code) : intervalHi c ≤ 0xFFFF := by
  have hout := uncompress_toNat_le c
  have hpow : 2 ^ (c.exponent - 5) ≤ 2 ^ 10 := by
    have he := c.exponent_lt
    exact Nat.pow_le_pow_right (by decide) (by omega)
  rw [intervalHi]
  split
  · omega
  · split
    · exact Nat.le_refl _
    · omega

/-- From 0x51 on a code's interval ends before the encoder reaches the next code (rule R53). -/
theorem compress_le_iff {c : Code} (h : 0x50 < c.toNat) (m : Magnitude) :
    (compress m).toNat ≤ c.toNat ↔ m.toNat ≤ intervalHi c := by
  by_cases hlast : c.toNat = 0xFF
  · rw [intervalHi, if_neg (Nat.not_le_of_lt h), if_pos hlast, hlast]
    exact iff_of_true (Nat.le_of_lt_succ (compress m).isLt) (Nat.le_of_lt_succ m.isLt)
  · have hc : c.toNat < 2 ^ 8 := c.isLt
    have hnext : (BitVec.ofNat 8 (c.toNat + 1)).toNat = c.toNat + 1 := by
      rw [BitVec.toNat_ofNat]
      omega
    have hreach := le_compress_iff (c := BitVec.ofNat 8 (c.toNat + 1)) (by omega) m
    rw [← intervalHi_add_one (Nat.le_of_lt h) hnext, hnext] at hreach
    omega

/-- Up to 0x50 the encoder is exact (rules R45, R46). -/
theorem uncompress_compress_of_code_le {m : Magnitude} (h : (compress m).toNat ≤ 0x50) : uncompress (compress m) = m := by
  have hraw := le_compressRaw_iff (m := m.toNat) (k := 0) (f := 1) (by decide) (by decide)
  have hcode := compress_toNat m
  obtain hle | heq : m.toNat ≤ 31 ∨ m.toNat = 32 := by omega
  · exact uncompress_compress_of_le hle
  · obtain rfl := BitVec.eq_of_toNat_eq (y := 32) heq
    decide

/-- The magnitudes of a canonical code are its interval (rule R53). -/
theorem compress_eq_iff {c : Code} (hcan : isCanonical c = true) (m : Magnitude) :
    compress m = c ↔ intervalLo c ≤ m.toNat ∧ m.toNat ≤ intervalHi c := by
  by_cases h : c.toNat ≤ 0x50
  · obtain ⟨hlo, hhi⟩ := interval_of_le h
    rw [hlo, hhi]
    constructor
    · rintro rfl
      rw [uncompress_compress_of_code_le h]
      exact ⟨Nat.le_refl _, Nat.le_refl _⟩
    · rintro ⟨hge, hle⟩
      rw [← BitVec.eq_of_toNat_eq (Nat.le_antisymm hge hle), compress_uncompress hcan]
  · have hgt : 0x50 < c.toNat := Nat.lt_of_not_le h
    rw [← compress_le_iff hgt, ← le_compress_iff hgt, ← BitVec.toNat_inj]
    omega

/-- A number of a canonical code's interval is a magnitude of that code (rule R53). -/
theorem exists_magnitude_of_mem_interval {c : Code} (hcan : isCanonical c = true) {n : Nat} (hlo : intervalLo c ≤ n)
    (hhi : n ≤ intervalHi c) : ∃ m : Magnitude, m.toNat = n ∧ compress m = c := by
  have hn : (BitVec.ofNat 16 n).toNat = n := Nat.mod_eq_of_lt (Nat.lt_succ_of_le (Nat.le_trans hhi (intervalHi_le c)))
  refine ⟨BitVec.ofNat 16 n, hn, (compress_eq_iff hcan _).mpr ?_⟩
  rw [hn]
  exact ⟨hlo, hhi⟩

theorem intervalLo_le_intervalHi {c : Code} (hcan : isCanonical c = true) : intervalLo c ≤ intervalHi c := by
  obtain ⟨hlo, hhi⟩ := (compress_eq_iff hcan _).mp (compress_uncompress hcan)
  exact Nat.le_trans hlo hhi

/-- The intervals are in the order of their codes, since the encoder is (rules R51, R53). -/
theorem intervalHi_lt_intervalLo {c c' : Code} (hcan : isCanonical c = true) (hcan' : isCanonical c' = true)
    (h : c.toNat < c'.toNat) : intervalHi c < intervalLo c' := by
  obtain ⟨m, hm, rfl⟩ := exists_magnitude_of_mem_interval hcan (intervalLo_le_intervalHi hcan) (Nat.le_refl _)
  obtain ⟨m', hm', rfl⟩ := exists_magnitude_of_mem_interval hcan' (Nat.le_refl _) (intervalLo_le_intervalHi hcan')
  rw [← hm, ← hm']
  exact Nat.lt_of_not_le fun hle => Nat.not_le_of_lt h (compress_toNat_mono hle)

/-- Settles O19: each code's interval is where the encoder has reached it and not the next code; the order of the intervals
is the encoder's, and every magnitude is in the interval of its own code. -/
theorem compressIsIntervalTable : Obligations.CompressIsIntervalTable :=
  ⟨fun _ m hcan => compress_eq_iff hcan m, fun _ _ => intervalHi_lt_intervalLo,
    fun m => ⟨compress m, isCanonical_compress m, (compress_eq_iff (isCanonical_compress m) m).mp rfl⟩,
    fun c hcan => ⟨intervalLo_le_intervalHi hcan, intervalHi_le c⟩⟩

end Sys2Proof.Machine
end

section
/-! SUPPORT. The outcomes of an operation and of a step (rule R54), and of a transaction in a system of instances (rule
R62). -/

namespace Sys2Proof.Machine

/-- Settles O30: an operation answers a next state, which is neither of the other two outcomes, and a step answers a next state
or refuses its line. -/
theorem operationsNeverStop : Obligations.OperationsNeverStop := by
  refine ⟨exec_answers, fun i s f hf => ?_, fun i s r hr => ?_, fun s f hf => ?_⟩
  · obtain ⟨t, ht⟩ := exec_answers i s
    cases ht.symm.trans hf
  · obtain ⟨t, ht⟩ := exec_answers i s
    cases ht.symm.trans hr
  · obtain ⟨t, ht⟩ | ⟨r, hr⟩ := step_next_or_refused s
    · cases ht.symm.trans hf
    · cases hr.symm.trans hf

/-- At a place where the system has no instance nothing runs (log 15). -/
theorem System.transact_of_length_le {sys : System} {k : Nat} (h : sys.length ≤ k) (i : Instr) :
    sys.transact k i = .refused (.noSuchInstance k) := by
  simp [System.transact, List.getElem?_eq_none h]

/-- At an instance the system has, the operation runs there, and the new system is the old one with that instance's state
replaced. -/
theorem System.exists_transact_of_lt {sys : System} {k : Nat} (h : k < sys.length) (i : Instr) :
    ∃ t, exec i sys[k] = .next t ∧ sys.transact k i = .next (sys.set k t) := by
  obtain ⟨t, ht⟩ := exec_answers i sys[k]
  exact ⟨t, ht, System.transact_of_exec (List.getElem?_eq_getElem h) ht⟩

/-- A transaction that runs replaces one instance's state, by the one the operation answers there. -/
theorem System.transact_cases {sys sys' : System} {k : Nat} {i : Instr} (h : sys.transact k i = .next sys') :
    ∃ s t, sys[k]? = some s ∧ exec i s = .next t ∧ sys' = sys.set k t := by
  by_cases hk : k < sys.length
  · obtain ⟨t, ht, hrun⟩ := System.exists_transact_of_lt hk i
    exact ⟨sys[k], t, List.getElem?_eq_getElem hk, ht, Host.Outcome.next.inj (h.symm.trans hrun)⟩
  · cases (System.transact_of_length_le (Nat.le_of_not_lt hk) i).symm.trans h

/-- The instances share no state: a transaction at one leaves each other as it was (rule R62). -/
theorem System.getElem?_of_transact {sys sys' : System} {k j : Nat} {i : Instr} (h : sys.transact k i = .next sys')
    (hjk : j ≠ k) : sys'[j]? = sys[j]? := by
  obtain ⟨_, t, _, _, rfl⟩ := System.transact_cases h
  exact List.getElem?_set_ne hjk.symm

/-- Settles O36: before the first transaction the system is `N_INST` copies of the undriven instance, and a transaction replaces
the state of the one instance it names, where the system has it. -/
theorem instancesAreIsolated : Obligations.InstancesAreIsolated := by
  refine ⟨fun p => ⟨List.length_replicate, fun s => List.eq_of_mem_replicate⟩,
    fun sys sys' k i h j => System.getElem?_of_transact h, fun sys k i => ⟨fun hk => ?_, fun hk => ?_⟩⟩
  · obtain ⟨t, _, hrun⟩ := System.exists_transact_of_lt hk i
    exact ⟨sys.set k t, hrun⟩
  · exact System.transact_of_length_le hk i

end Sys2Proof.Machine
end

section
/-! SUPPORT. The words the decoder rejects, by which name, and the refusal of a line that drives one (rules R24, R66). -/

namespace Sys2Proof

/-- The levels that are no bit are X and Z (rule R66). -/
theorem Level.defined_eq_false_iff (l : Level) : l.defined = false ↔ l = .x ∨ l = .z := by
  cases l <;> simp [Level.defined]

/-- One undefined bit leaves the whole word without a value. -/
theorem BusWord.value?_eq_none_of_mem {w : BusWord} {l : Level} (hl : l ∈ w) (hundef : l.defined = false) :
    BusWord.value? w = none := by
  have hall : w.all Level.defined = false := List.all_eq_false.mpr ⟨l, hl, by simp [hundef]⟩
  rwa [← BusWord.value?_isSome, Option.isSome_eq_false_iff, Option.isNone_iff_eq_none] at hall

theorem decode_of_width_ne {p : InPort} {w : BusWord} (h : w.length ≠ p.width) : decode p w = .error .wrongWidth := by
  rw [decode, if_neg h]

theorem decode_of_value?_eq_none {p : InPort} {w : BusWord} (hlen : w.length = p.width)
    (hv : BusWord.value? w = none) : decode p w = .error .undefinedBit := by
  rw [decode, if_pos hlen, hv]

end Sys2Proof

namespace Sys2Proof.Machine

/-- A step whose line drives a word the decoder rejects is refused, and the refusal names the reason. -/
theorem step_of_decode_error {s : State} {p : InPort} {w : BusWord} {ls : List Line} {r : DecodeReject}
    (hs : s.script = .drive p w :: ls) (hr : decode p w = .error r) : step s = .refused (refusalOf p r) := by
  rw [step_cons hs, runLine, runDrive, hr]

/-- Settles O28: the decoder rejects the word as of the wrong width, or as without a value, and the step refuses the line for
that reason. -/
theorem nonInputsAreRefused : Obligations.NonInputsAreRefused := by
  refine ⟨fun s p w ls hs hlen => ?_, fun s p w ls hs hlen hbit => ?_⟩
  · exact step_of_decode_error hs (decode_of_width_ne hlen)
  · obtain ⟨l, hl, hxz⟩ := hbit
    have hv := BusWord.value?_eq_none_of_mem hl (l.defined_eq_false_iff.mpr hxz)
    exact step_of_decode_error hs (decode_of_value?_eq_none hlen hv)

end Sys2Proof.Machine
end

section
/-! SUPPORT. Waveforms (rules R66, R68): what a port carries through a slot, and an output waveform that shows a chosen value
at one tick. -/

namespace Sys2Proof.Machine

/-- A port that has held a word carries it now. -/
theorem HeldFor.wave_eq {α : Type} {wave : Nat → Option α} {d t : Nat} {v : α} (h : HeldFor wave d t v) :
    wave t = some v :=
  h.2 0 (Nat.zero_le d)

/-- An undriven port holds no word. -/
theorem not_heldFor_of_eq_none {α : Type} {wave : Nat → Option α} {t : Nat} (h : wave t = none) (d : Nat) (v : α) :
    ¬ HeldFor wave d t v := fun hheld => by
  cases h.symm.trans hheld.wave_eq

/-- The `len` ticks up to a slot's end carry that slot's value. -/
theorem slotWave_slotEnd_sub {α : Type} {len k : Nat} (hk : k < len) (vals : Nat → Option α) (n : Nat) :
    slotWave len vals (slotEnd len n - k) = vals n := by
  have htick : slotEnd len n - k = len * n + (len - 1 - k) := by
    rw [slotEnd, Nat.mul_comm n len]
    omega
  rw [slotWave, htick, Nat.mul_add_div (Nat.zero_lt_of_lt hk), Nat.div_eq_of_lt (by omega), Nat.add_zero]

/-- At the end of a slot longer than the delay, the slot's word has been held for the delay. -/
theorem heldFor_slotEnd {α : Type} {d len n : Nat} {vals : Nat → Option α} {v : α} (hd : d < len)
    (hv : vals n = some v) : HeldFor (slotWave len vals) d (slotEnd len n) v := by
  refine ⟨?_, fun k hk => (slotWave_slotEnd_sub (Nat.lt_of_le_of_lt hk hd) vals n).trans hv⟩
  rw [slotEnd]
  omega

/-- Settles O49: at a slot's end the input has been held for the delay, so a conforming output shows the unit's function of
it, which is the settled output of the model's state. -/
theorem settledSampleIsModelOutput : Obligations.SettledSampleIsModelOutput := by
  rintro p _ dOut _ eOut hdec henc trace len hlenDec hlenEnc rfl rfl n
  refine ⟨fun hdriven => ?_, fun hdriven => ?_⟩
  · obtain ⟨c, hc⟩ := Option.ne_none_iff_exists'.mp hdriven
    rw [State.decOut_of_decIn hc, hdec _ c (heldFor_slotEnd hlenDec hc)]
  · obtain ⟨m, hm⟩ := Option.ne_none_iff_exists'.mp hdriven
    rw [State.encOut_of_encIn hm, henc _ m (heldFor_slotEnd hlenEnc hm)]

/-- The output waveform of a unit with function `f` that follows its input without delay, but shows `v` at tick `t` and
wherever the input is undriven. -/
def waveShowing {α β : Type} (f : α → β) (inp : Nat → Option α) (t : Nat) (v : β) (u : Nat) : β :=
  if u = t then v else ((inp u).map f).getD v

theorem waveShowing_self {α β : Type} (f : α → β) (inp : Nat → Option α) (t : Nat) (v : β) :
    waveShowing f inp t v t = v := if_pos rfl

/-- A value shown at a tick where no word is held breaks no rule: where a word is held, the waveform shows the unit's function
of it. This is `DecoderConforms` and `EncoderConforms` for the two units' functions. -/
theorem waveShowing_of_heldFor {α β : Type} (f : α → β) {inp : Nat → Option α} {d t : Nat} (v : β)
    (hopen : ∀ a, ¬ HeldFor inp d t a) (u : Nat) (a : α) (h : HeldFor inp d u a) : waveShowing f inp t v u = f a := by
  have hne : u ≠ t := fun hut => hopen a (hut ▸ h)
  rw [waveShowing, if_neg hne, h.wave_eq, Option.map_some, Option.getD_some]

/-- Settles O50: the waveform that follows the input and shows the chosen value at the open tick conforms, and an undriven
input holds no word. -/
theorem unsettledOutputIsAnyValue : Obligations.UnsettledOutputIsAnyValue :=
  ⟨fun _ inp t v hopen => ⟨waveShowing uncompress inp t v, waveShowing_of_heldFor uncompress v hopen,
      waveShowing_self uncompress inp t v⟩,
    fun _ inp t v hopen => ⟨waveShowing compress inp t v, waveShowing_of_heldFor compress v hopen,
      waveShowing_self compress inp t v⟩,
    fun p _ _ h => not_heldFor_of_eq_none h p.tDec, fun p _ _ h => not_heldFor_of_eq_none h p.tEnc⟩

end Sys2Proof.Machine
end
